-- ==== Sys2Proof/Word.lean ====
section
/-! DEFINITION. The word types of the CRB: what the spec treats as bits (10_state.md R21 to R23, 40_numerics.md R130). -/

namespace Sys2Proof

/-- One word of the host interface (R61, R65: the only access width). -/
abbrev Word := BitVec 32

/-- A byte: a character code, a colour channel, the brightness numerator (R93). -/
abbrev Byte := BitVec 8

/-- A value of format F: always a binary32 bit pattern (R10, R130). -/
abbrev F := BitVec 32

/-- A pixel: red in bits 23 to 16, green in 15 to 8, blue in 7 to 0 (R22). -/
abbrev Pixel := BitVec 24

/-- A glyph as register GLY packs it: bit 5r+j is bit j of row r (R23). -/
abbrev GlyphBits := BitVec 25

/-- The frame buffer or the output buffer: exactly 25 pixels (R26, R27). -/
abbrev Buffer := Vector Pixel 25

end Sys2Proof
end

