-- ==== Sys2Proof/Config.lean ====
section
/-! DEFINITION. What is fixed for the life of one CRB (00_scope.md R6): the constants the spec fixes, the build
parameters it leaves OPEN, and the free values. A constant with no body is a value nothing in Lean can evaluate, so a
claim holds whatever it is. -/

namespace Sys2Proof

/-- A glyph: five rows of five bits; `g[r]` is `row[r]` (R23, R160). The row type is the whole of well-formedness. -/
abbrev Glyph := Vector (BitVec 5) 5

/-- The font table: a total table of 256 glyphs, indexed by the byte value (R160, R161). -/
abbrev Font := Vector Glyph 256

/-- The message `MSG`: a byte string of length `L ≥ 1` (R6, D24), so its first byte is a field of its own. -/
structure Message where
  first : Byte
  rest  : List Byte
  deriving DecidableEq, Repr, Inhabited

/-- The OPEN build parameters of R6. R20 makes them a parameter of the step function and not a component of the
CRB's own state: the host fixes the step's type, so the state carries them beside it and no step changes them
(DESIGN CHOICE, log 1). `sine` lists points at which this build states its sine unit: at every other argument the
unit is `Config.sineRaw` (log 2). -/
structure Build where
  font    : Font
  message : Message
  speed0  : F
  bright0 : Byte
  sine    : List (F × F)
  deriving DecidableEq, Repr, Inhabited

/-- The values R33 leaves unspecified after a reset, each of its stored width (U1). -/
structure PowerOn where
  regT  : F
  regH  : F
  regS  : F
  regV  : F
  color : Pixel
  fg    : Pixel
  bg    : Pixel
  code  : Byte
  gly   : GlyphBits
  fb    : Buffer
  out   : Buffer
  deriving DecidableEq, Repr, Inhabited

/-- The primitives whose NaN results R131 leaves open. -/
inductive NanSource where
  | add | sub | mul | div | rem2
  deriving DecidableEq, Repr, Inhabited

/-- `DWELL`, ticks one character stays displayed: fixed at 30 (R6, D24). -/
def Config.dwell : Nat := 30

/-- `TICK_MS`, the period the host waits between ticks; no rule of the CRB reads it (R6, D26). -/
def Config.tickMs : Nat := 16

/-- `TWO_PI`, the binary32 nearest 2π (R138). -/
def Config.twoPi : F := 0x40C90FDB#32

/-- `FONT` of the reset machine: OPEN, any total table (R161, U3). -/
opaque Config.font : Font

/-- The bytes `MSG` of the reset machine is made from: OPEN (D24, U4). -/
opaque Config.rawMessage : Message

/-- The pattern `SPEED0` of the reset machine is made from: OPEN (D30, U17). -/
opaque Config.rawSpeed0 : F

/-- `BRIGHT0` of the reset machine: OPEN in 0..255 (D16, U17). -/
opaque Config.bright0 : Byte

/-- The function the sine unit is made from: OPEN (R141, U2); `sine` of Machine/Parameters.lean gives it the named
properties. -/
opaque Config.sineRaw : F → F

/-- Sign and payload of a NaN a primitive answers: unspecified (R131, U7). -/
opaque Config.nanRaw : NanSource → F → F → F

/-- The unspecified values the `n`-th reset leaves (R33, U1): one record per reset, counted by the state. -/
opaque Config.powerOn : Nat → PowerOn

end Sys2Proof
end

