-- ==== Sys2Proof/Machine/Float.lean ====
section
/-! DEFINITION. Binary32 as 40_numerics.md defines it: the format (R130), the correctly rounded primitives (R131,
R132), `frem2` (R133), `fabs` (R134), the comparisons (R135), the domain predicates (R136), `trunc_u8` (R137) and the
constants (R138). A magnitude is an exact natural number of units of 2^-149, the smallest subnormal, so each primitive
is exact arithmetic followed by one rounding. -/

namespace Sys2Proof.Machine

/-! ### The format (R130) -/

/-- Bit 31, the sign. -/
def fSign (x : F) : Bool := x.getLsbD 31

/-- Bits 30 to 23, the biased exponent. -/
def fExp (x : F) : Nat := (x.extractLsb' 23 8).toNat

/-- Bits 22 to 0, the fraction. -/
def fFrac (x : F) : Nat := (x.extractLsb' 0 23).toNat

/-- `finite(x)`: the exponent is not 255. -/
def isFinite (x : F) : Bool := fExp x != 255

def isInf (x : F) : Bool := fExp x == 255 && fFrac x == 0

def isNaN (x : F) : Bool := fExp x == 255 && fFrac x != 0

/-- The magnitude of a number in units of 2^-149: `f` for a subnormal, `(2^23 + f) · 2^(e-1)` otherwise. An infinity
gets 2^277, above every finite magnitude, which is all a comparison needs. -/
def fMag (x : F) : Nat :=
  if fExp x = 0 then fFrac x else (2 ^ 23 + fFrac x) * 2 ^ (fExp x - 1)

/-- The signed value in units of 2^-149; both zeros have value 0. -/
def fVal (x : F) : Int :=
  if fSign x then -(fMag x : Int) else (fMag x : Int)

/-! ### Rounding to nearest, ties to even (R131) -/

/-- The quotient `num / den` rounded to the nearest integer, a tie to the even one. -/
def rneDiv (num den : Nat) : Nat :=
  if den < 2 * (num % den) ∨ (2 * (num % den) = den ∧ num / den % 2 = 1) then num / den + 1 else num / den

/-- How many low bits a value of `num / den` units has below a 24-bit significand. -/
def roundShift (num den : Nat) : Nat := (num / den).log2 - 23

/-- Exponent and fraction, as bits 30 to 0, of `num / den` units rounded once. A significand that rounds up to 2^24
carries into the exponent by itself, and a subnormal is its own pattern. -/
def roundBits (num den : Nat) : Nat :=
  roundShift num den * 2 ^ 23 + rneDiv num (den * 2 ^ roundShift num den)

/-- `RN` on the magnitude `num / den` with the given sign; what passes the largest finite number is an infinity. -/
def roundMag (neg : Bool) (num den : Nat) : F :=
  BitVec.ofNat 32 ((if neg then 2 ^ 31 else 0) + min (roundBits num den) 0x7F800000)

/-- A NaN whose sign and payload are free (R131, U7): every NaN is the result for some value of the free constant. -/
def nanOf (src : NanSource) (a b : F) : F :=
  let raw := Config.nanRaw src a b
  if fFrac raw = 0 then raw ||| 0x7FC00000#32 else raw ||| 0x7F800000#32

/-! ### The primitives (R132 to R134) -/

/-- The value with its sign bit flipped. -/
def fneg (x : F) : F := x ^^^ 0x80000000#32

/-- `RN(v)` for an exact sum `v`; a zero sum takes the sign `negZero`. -/
def roundSum (negZero : Bool) (v : Int) : F :=
  if v = 0 then roundMag negZero 0 1 else roundMag (decide (v < 0)) v.natAbs 1

/-- `fadd(a, b) = RN(a + b)` (R132): a zero sum is -0.0 only when both operands are negative zeros. -/
def fadd (a b : F) : F :=
  if isNaN a || isNaN b then nanOf .add a b
  else if isInf a then (if isInf b && fSign a != fSign b then nanOf .add a b else a)
  else if isInf b then b
  else roundSum (fSign a && fSign b) (fVal a + fVal b)

/-- `fsub(a, b) = RN(a - b)` (R132). -/
def fsub (a b : F) : F :=
  if isNaN a || isNaN b then nanOf .sub a b else fadd a (fneg b)

/-- `fmul(a, b) = RN(a × b)` (R132): the sign is the exclusive-or of the operand signs. -/
def fmul (a b : F) : F :=
  if isNaN a || isNaN b then nanOf .mul a b
  else if isInf a || isInf b then
    (if fMag a = 0 ∨ fMag b = 0 then nanOf .mul a b
     else if fSign a != fSign b then 0xFF800000#32 else 0x7F800000#32)
  else roundMag (fSign a != fSign b) (fMag a * fMag b) (2 ^ 149)

/-- `fdiv(a, b) = RN(a ÷ b)` (R132): a finite number over a zero is an infinity, as in IEEE 754. -/
def fdiv (a b : F) : F :=
  if isNaN a || isNaN b then nanOf .div a b
  else if isInf a then
    (if isInf b then nanOf .div a b
     else if fSign a != fSign b then 0xFF800000#32 else 0x7F800000#32)
  else if isInf b then (if fSign a != fSign b then 0x80000000#32 else 0#32)
  else if fMag b = 0 then
    (if fMag a = 0 then nanOf .div a b
     else if fSign a != fSign b then 0xFF800000#32 else 0x7F800000#32)
  else roundMag (fSign a != fSign b) (fMag a * 2 ^ 149) (fMag b)

/-- `frem2(q)` (R133): the truncated remainder by 2.0, exact, with the sign of `q`. -/
def frem2 (q : F) : F :=
  if isFinite q then roundMag (fSign q) (fMag q % 2 ^ 150) 1 else nanOf .rem2 q q

/-- `fabs(x)` (R134): bit 31 cleared. -/
def fabs (x : F) : F := x &&& 0x7FFFFFFF#32

/-! ### Comparisons and domains (R135, R136) -/

/-- `flt(a, b)`: as real numbers, false on a NaN. -/
def flt (a b : F) : Bool := !isNaN a && !isNaN b && decide (fVal a < fVal b)

/-- `fle(a, b)`: as real numbers, false on a NaN. -/
def fle (a b : F) : Bool := !isNaN a && !isNaN b && decide (fVal a ≤ fVal b)

/-- `fgt(a, b)`: as real numbers, false on a NaN. -/
def fgt (a b : F) : Bool := !isNaN a && !isNaN b && decide (fVal b < fVal a)

/-! The constants of R138. -/

def f0 : F := 0x00000000#32
def fHalf : F := 0x3F000000#32
def f1 : F := 0x3F800000#32
def fNeg1 : F := 0xBF800000#32
def f60 : F := 0x42700000#32
def f120 : F := 0x42F00000#32
def f180 : F := 0x43340000#32
def f240 : F := 0x43700000#32
def f255 : F := 0x437F0000#32
def f300 : F := 0x43960000#32
def f360 : F := 0x43B40000#32

/-- `in01(x)`: finite and in [0, 1]; -0.0 satisfies it (R136). -/
def in01 (x : F) : Bool := isFinite x && fle f0 x && fle x f1

/-- `inhue(x)`: finite and in [0, 360] (R136). -/
def inhue (x : F) : Bool := isFinite x && fle f0 x && fle x f360

/-! ### Truncation to a channel (R137) -/

/-- `trunc_u8(y)`: the floor, saturating outside [0, 256), 0 for a NaN. -/
def truncU8 (y : F) : Byte :=
  if isNaN y then 0#8
  else if fVal y < 0 then 0#8
  else if 256 * 2 ^ 149 ≤ fMag y then 255#8
  else BitVec.ofNat 8 (fMag y / 2 ^ 149)

end Sys2Proof.Machine
end

