-- ==== Sys2Proof/Syntax.lean ====
section
/-! DEFINITION. The commands of the CRB: one constructor per row of the opcode table (30_encoding.md R91). A command
word carries no operand and no register number (R90), so no constructor has a field. -/

namespace Sys2Proof

/-- The eight commands (R91, R234). -/
inductive Instr where
  /-- HUE: animation-time scalar T to COLOR (R185). -/
  | hue
  /-- HSV: H, S, V to COLOR (R186). -/
  | hsv
  /-- GLYPH: look up the glyph of CODE into GLY (R162). -/
  | glyph
  /-- RENDF: render with fill, opaque background (R164). -/
  | rendf
  /-- RENDO: render as overlay, transparent background (R165). -/
  | rendo
  /-- SCALE: frame buffer to output buffer (R202). -/
  | scale
  /-- EMIT: hand the output buffer to the Output Sink (R204). -/
  | emit
  /-- TICK: one whole tick, steps 1 to 7 (R216). -/
  | tick
  deriving DecidableEq, Repr, Inhabited

end Sys2Proof
end

