-- ==== Sys2Proof/WellFormed.lean ====
section
/-! DEFINITION. Well-formedness. A command word is well formed when it is one of the eight of R91; a constructor of
Instr has no operand, so every Instr is well formed and the checks are on the raw word. A build is well formed when
its OPEN parameters meet the constraints of R6. -/

namespace Sys2Proof

/-- The two fields of the one command format (R90). -/
structure CommandWord where
  op   : BitVec 8
  zero : BitVec 24
  deriving DecidableEq, Repr, Inhabited

/-- The fields of a word written to CMD: `op` is bits 7 to 0, `zero` bits 31 to 8 (R90). -/
def CommandWord.ofWord (w : Word) : CommandWord :=
  { op := w.extractLsb' 0 8, zero := w.extractLsb' 8 24 }

/-- The eight defined opcodes (R91). -/
def definedOpcodes : List (BitVec 8) := [0x01, 0x02, 0x10, 0x11, 0x12, 0x20, 0x21, 0x30]

/-- Bits 31 to 8 are zero (R90, R95). -/
def CommandWord.zeroOk (c : CommandWord) : Bool := c.zero == 0

/-- The opcode is one of the eight (R91, R95). -/
def CommandWord.opOk (c : CommandWord) : Bool := definedOpcodes.contains c.op

/-- A legal command word (R92, R95). -/
def CommandWord.wf (c : CommandWord) : Bool := c.zeroOk && c.opOk

/-- `SPEED0` is finite and in [0, 1] (R6). -/
def Build.speedOk (b : Build) : Bool := Machine.in01 b.speed0

/-- `L ≤ 2^32 - 1` (R6); `L ≥ 1` holds by the type. -/
def Build.messageOk (b : Build) : Bool := decide (b.message.rest.length + 1 ≤ 2 ^ 32 - 1)

/-- The constraints R6 puts on the OPEN parameters that their types do not already hold. -/
def Build.wf (b : Build) : Bool := b.speedOk && b.messageOk

end Sys2Proof
end

