-- ==== Sys2Proof/Decode.lean ====
section
/-! DEFINITION. The decoder of the command port, total on every word and rejecting by name (30_encoding.md R92, R95),
and the encoder from the same table (R91). -/

namespace Sys2Proof

/-- Why a word written to CMD is no command (R92, R95). -/
inductive DecodeError where
  /-- Bits 31 to 8 are not all zero: tested first (R92). -/
  | highBitsSet
  /-- The opcode is none of the eight. -/
  | undefinedOpcode (op : BitVec 8)
  deriving DecidableEq, Repr

/-- The opcode of each command (R91). -/
def opcode : Instr → BitVec 8
  | .hue   => 0x01#8
  | .hsv   => 0x02#8
  | .glyph => 0x10#8
  | .rendf => 0x11#8
  | .rendo => 0x12#8
  | .scale => 0x20#8
  | .emit  => 0x21#8
  | .tick  => 0x30#8

/-- The command word of a command: the opcode under 24 zero bits (R90, R91). -/
def encode (i : Instr) : Word := 0#24 ++ opcode i

/-- The command an opcode stands for (R91); all eight bits are compared. -/
def decodeOp (op : BitVec 8) : Option Instr :=
  if op = 0x01#8 then some .hue
  else if op = 0x02#8 then some .hsv
  else if op = 0x10#8 then some .glyph
  else if op = 0x11#8 then some .rendf
  else if op = 0x12#8 then some .rendo
  else if op = 0x20#8 then some .scale
  else if op = 0x21#8 then some .emit
  else if op = 0x30#8 then some .tick
  else none

/-- Decoding of a word written to CMD, the tests in the order of R92. -/
def decode (w : Word) : Except DecodeError Instr :=
  if (CommandWord.ofWord w).zero ≠ 0 then .error .highBitsSet
  else
    match decodeOp (CommandWord.ofWord w).op with
    | some i => .ok i
    | none   => .error (.undefinedOpcode (CommandWord.ofWord w).op)

/-- What the decoder reads from an instruction of `nbits` bits `w`. Every command is one 32-bit word (R96), so a
value that does not fit one is no instruction. -/
def decodeTableWord (nbits w : Nat) : Option Instr :=
  if w % 2 ^ nbits < 2 ^ 32 then (decode (BitVec.ofNat 32 (w % 2 ^ nbits))).toOption else none

end Sys2Proof
end

