-- ==== Sys2Proof/Machine/Parameters.lean ====
section
/-! DEFINITION. The OPEN parameters of 00_scope.md R6 as the machine reads them: the sine unit with its named properties
(40_numerics.md R141), the message and its length, the font look-up, and the build the reset machine has. -/

namespace Sys2Proof.Machine

/-- `SIN` (R141) of a build. At an argument the build lists it is the listed value, elsewhere the free function
`Config.sineRaw`; SIN_ZERO holds by the first test, and SIN_RANGE by the second: a value the properties rule out for a
finite argument is replaced by +0.0. So every function with the three properties, and no other, is the sine unit of
some build and some free function (log 2). -/
def sine (b : Build) (a : F) : F :=
  let v := (b.sine.lookup a).getD (Config.sineRaw a)
  if a = f0 then f0
  else if isFinite a && !(isFinite v && fle fNeg1 v && fle v f1) then f0
  else v

/-- `L`, the length of the message. -/
def messageLength (m : Message) : Nat := m.rest.length + 1

/-- `MSG[i]` (R9), for `i < L`. -/
def messageByte (m : Message) (i : Nat) : Byte := (m.first :: m.rest).getD i 0

/-- `char_index` (R31, R145 (d)): `(ITER div DWELL) mod L`. -/
def charIndex (m : Message) (iter : Word) : Nat := iter.toNat / Config.dwell % messageLength m

/-- `FONT[c]` (R160): total over the byte range. -/
def fontGlyph (f : Font) (c : Byte) : Glyph := f[c.toNat]'c.isLt

/-- The message of the reset machine: the OPEN bytes, no longer than R6 allows. -/
def resetMessage : Message :=
  { Config.rawMessage with rest := Config.rawMessage.rest.take (2 ^ 32 - 2) }

/-- `SPEED0` of the reset machine: any value finite and in [0, 1], and no other (R6). -/
def resetSpeed0 : F := if in01 Config.rawSpeed0 then Config.rawSpeed0 else f0

/-- The build of the reset machine: every build R6 allows, for some value of the OPEN constants. -/
def resetBuild : Build :=
  { font := Config.font, message := resetMessage, speed0 := resetSpeed0, bright0 := Config.bright0, sine := [] }

end Sys2Proof.Machine
end

