-- ==== Sys2Proof/Machine/State.lean ====
section
/-! DEFINITION. The state of the CRB (10_state.md), the transactions the host has yet to issue (20_memory.md), the
reasons a step can stop, and the state after reset (70_reset_and_hazards.md R271). -/

namespace Sys2Proof.Machine

/-- The four error conditions (R240). -/
inductive Cause where
  /-- The Output Sink answered `fail` to a frame (R241). -/
  | transmitError
  /-- A float operand outside its domain (R242). -/
  | edom
  /-- An undefined command word (R243). -/
  | ecmd
  /-- A transaction the index map does not allow (R244). -/
  | eacc
  deriving DecidableEq, Repr, Inhabited

/-- The Output Sink's answer to a frame: a free input of the environment (R206, U5). -/
inductive SinkAnswer where
  | ok
  | fail
  deriving DecidableEq, Repr, Inhabited

/-- One pixel as the sink is handed it: three separate channel values (R205). -/
structure Rgb where
  r : Byte
  g : Byte
  b : Byte
  deriving DecidableEq, Repr, Inhabited

/-- A frame handed to the sink: 25 pixels, entry 0 first (R205). -/
abbrev Frame := Vector Rgb 25

/-- What a word index names on the host's index map (R61, R62). -/
inductive HostReg where
  | cmd | status | regT | regH | regS | regV | color | fg | bg | code | gly | bright | time | speed | iter | cidx
  /-- `FB[k]`, index 32 + k. -/
  | fb (k : Fin 25)
  /-- `OUT[k]`, index 64 + k. -/
  | out (k : Fin 25)
  /-- Every index the map does not assign. -/
  | unassigned
  deriving DecidableEq, Repr, Inhabited

/-- What the outside world can do to the CRB (R63, R64, R258, R263, R270). -/
inductive HostAction where
  /-- `RegRead(idx)` (R63). -/
  | read (idx : Nat)
  /-- `RegWrite(idx, v)` (R64). -/
  | write (idx : Nat) (v : Word)
  /-- `RegWrite(idx, tmp)` of the word the host's latest `RegRead` returned: the second half of MOV (R98). -/
  | writeRead (idx : Nat)
  /-- `WAIT ms`: the host blocks on the Timing Source (R98, R258). -/
  | wait (ms : Nat)
  /-- The external reset (R270). -/
  | reset
  /-- A bus access narrower than a word, of `bits` bits, which a platform must not route here (R65). -/
  | subWord (idx : Nat) (bits : Nat)
  deriving DecidableEq, Repr, Inhabited

/-- One action of the host with the answer the sink gives if the action hands it a frame (R206). -/
structure HostEvent where
  action : HostAction
  answer : SinkAnswer
  deriving DecidableEq, Repr, Inhabited

/-- The fourteen stored registers, `FB` and `OUT` (R20), and beside them what is no state of the CRB but has to stand
somewhere: its build parameters, its inputs (the host's pending actions, the sink's answer) and its observations (the
sink record, the word last read). -/
structure State where
  /-- STATUS bits 3 to 0: HALT, EDOM, ECMD, EACC from bit 0 up (R25). -/
  status : BitVec 4
  /-- T, operand of HUE (R21). -/
  regT   : F
  /-- H, operand of HSV: hue in degrees (R21). -/
  regH   : F
  /-- S, operand of HSV: saturation (R21). -/
  regS   : F
  /-- V, operand of HSV: value (R21). -/
  regV   : F
  /-- COLOR, result of HUE and HSV (R21). -/
  color  : Pixel
  /-- FG, foreground colour (R21). -/
  fg     : Pixel
  /-- BG, background colour of RENDF (R21). -/
  bg     : Pixel
  /-- CODE, character code (R21). -/
  code   : Byte
  /-- GLY, the glyph last looked up (R21, R23). -/
  gly    : GlyphBits
  /-- BRIGHT, brightness numerator over 256 (R32). -/
  bright : Byte
  /-- TIME, the animation phase (R30). -/
  time   : F
  /-- SPEED, added to TIME by each TICK (R32). -/
  speed  : F
  /-- ITER, the tick count modulo 2^32; CIDX is a view of it (R31). -/
  iter   : Word
  /-- FB, the frame buffer (R26). -/
  fb     : Buffer
  /-- OUT, the output buffer (R27). -/
  out    : Buffer
  /-- The build parameters (R6, R20); no step changes them. -/
  build  : Build
  /-- MODEL: how many resets have been applied; it picks the unspecified values of each (R33; log 3, 8). -/
  resets : Nat
  /-- MODEL: the actions the host has yet to issue, the next one first (R70; log 4). -/
  pending : List HostEvent
  /-- MODEL: the sink's answer to the frame of the current action, if it hands one over (R206; log 6). -/
  sinkAnswer : SinkAnswer
  /-- OBSERVATION: the frames the sink accepted, in order (R207; log 7); nothing of the CRB reads it. -/
  sinkRecord : List Frame
  /-- OBSERVATION: the word the host's latest `RegRead` returned (R63; log 5). -/
  lastRead   : Word
  deriving DecidableEq, Repr

/-- No step of the CRB stops with a fault: each of the four errors (R240) is a flag in a next state, the halt included
(R246). So there is no fault reason. -/
inductive Fault where
  deriving DecidableEq, Repr

/-- Why a step has no meaning. -/
inductive Refusal where
  /-- Raised by exec for a command with no meaning yet (none is left). Safe: the run stops. -/
  | notModelled (mnemonic : String)
  /-- Raised by a bus access narrower than a word, which a model refuses (R65, U16). Safe: the run stops. -/
  | subWordAccess
  deriving DecidableEq, Repr

/-- A CRB of build `b` right after its `n`-th reset, with no action pending (R33, R271): what the spec gives a value
has it, the rest has the free value of that reset. -/
def State.afterReset (b : Build) (n : Nat) : State :=
  let u := Config.powerOn n
  { status := 0#4
    regT := u.regT, regH := u.regH, regS := u.regS, regV := u.regV
    color := u.color, fg := u.fg, bg := u.bg, code := u.code, gly := u.gly
    bright := b.bright0, time := f0, speed := b.speed0, iter := 0#32
    fb := u.fb, out := u.out
    build := b, resets := n, pending := [], sinkAnswer := .ok, sinkRecord := [], lastRead := 0#32 }

/-- The machine right after reset (R33, R271). -/
def State.reset : State := State.afterReset resetBuild 0

end Sys2Proof.Machine
end

