-- ==== Sys2Proof/Machine/Flags.lean ====
section
/-! DEFINITION. STATUS and its four sticky flags (10_state.md R25, 60_exceptions.md R240), and the tests that raise
them (R242, R248). -/

namespace Sys2Proof.Machine

/-- The cause code of an error is its bit position in STATUS (R240). -/
def Cause.code : Cause → Nat
  | .transmitError => 0
  | .edom => 1
  | .ecmd => 2
  | .eacc => 3

/-- The flag of STATUS that records a cause (R25). -/
def State.flag (s : State) (c : Cause) : Bool := s.status.getLsbD c.code

/-- `STATUS.HALT` (R25, R246). -/
def State.halt (s : State) : Bool := s.flag .transmitError

/-- STATUS with one more flag set; the other bits stay (R25: sticky). -/
def statusWith (st : BitVec 4) (c : Cause) : BitVec 4 := st ||| (1#4 <<< c.code)

/-- The operand domain of HUE (R185, R242). -/
def State.hueDomain (s : State) : Bool := in01 s.regT

/-- The operand domain of HSV: all operands are tested together (R186, R242, R248). -/
def State.hsvDomain (s : State) : Bool := inhue s.regH && in01 s.regS && in01 s.regV

/-- The operand domain of TICK, line 0 of R216 (R242). -/
def State.tickDomain (s : State) : Bool := in01 s.time && in01 s.speed

end Sys2Proof.Machine
end

