-- ==== Sys2Proof/Machine/Ops.lean ====
section
/-! DEFINITION. The named operations over the state the meanings are written in: raising an error, which is all there is
of exception entry (60_exceptions.md R246: nothing is saved, control goes nowhere, no mode changes), the one way back
from it, reset (R250), and one update for each result. -/

namespace Sys2Proof.Machine

/-- `raise E` (R9, R240): the flag of the cause is set and nothing else changes. For `transmitError` that is the entry
into the halted state (R246). -/
def State.raise (s : State) (c : Cause) : State := { s with status := statusWith s.status c }

/-- The external reset (R270, R271), the only exit from the halted state and the only way to clear a flag (R250). The
build is no state and stays; the sink record keeps what the sink accepted; the host's pending actions and the word it
read last are the host's. -/
def State.applyReset (s : State) : State :=
  { State.afterReset s.build (s.resets + 1) with
    pending := s.pending, sinkAnswer := s.sinkAnswer, sinkRecord := s.sinkRecord, lastRead := s.lastRead }

/-- COLOR takes a result (R185, R186). -/
def State.setColor (s : State) (p : Pixel) : State := { s with color := p }

/-- GLY takes the glyph looked up (R162, D28). -/
def State.setGly (s : State) (g : GlyphBits) : State := { s with gly := g }

/-- FB takes a rendered frame (R164, R165). -/
def State.setFb (s : State) (b : Buffer) : State := { s with fb := b }

/-- OUT takes a scaled frame (R202). -/
def State.setOut (s : State) (b : Buffer) : State := { s with out := b }

/-- The operand registers TICK loads for its own steps: T, FG, BG and CODE (R216 lines 1 and 2). -/
def State.loadOperands (s : State) (t : F) (fg bg : Pixel) (code : Byte) : State :=
  { s with regT := t, fg := fg, bg := bg, code := code }

/-- The state advance of TICK: ITER and TIME (R216 lines 5 and 7). -/
def State.advance (s : State) (iter : Word) (time : F) : State := { s with iter := iter, time := time }

/-- The sink accepted a frame: it is appended to the sink record (R207). -/
def State.accept (s : State) (f : Frame) : State := { s with sinkRecord := s.sinkRecord ++ [f] }

/-- The host received a word from a read (R63). -/
def State.setLastRead (s : State) (w : Word) : State := { s with lastRead := w }

/-- The host issues its next action: the rest stay pending, and the sink will answer `a` (R70, R206). -/
def State.issue (s : State) (rest : List HostEvent) (a : SinkAnswer) : State :=
  { s with pending := rest, sinkAnswer := a }

end Sys2Proof.Machine
end

