-- ==== Sys2Proof/Machine/Operands.lean ====
section
/-! DEFINITION. The operands of the CRB as the host reaches them: the index map (20_memory.md R61, R62), what a read
returns (R63), what a write stores (R64), and the packing of a pixel and of a glyph (10_state.md R22, R23). -/

namespace Sys2Proof.Machine

/-! ### Pixels and glyphs -/

/-- `px(r, g, b)` (R22). -/
def px (r g b : Byte) : Pixel := r ++ g ++ b

/-- `p.r`, bits 23 to 16. -/
def pxR (p : Pixel) : Byte := p.extractLsb' 16 8

/-- `p.g`, bits 15 to 8. -/
def pxG (p : Pixel) : Byte := p.extractLsb' 8 8

/-- `p.b`, bits 7 to 0. -/
def pxB (p : Pixel) : Byte := p.extractLsb' 0 8

/-- The packing of a glyph in GLY: row 4 highest, row 0 lowest (R23, R162). -/
def packGlyph (g : Glyph) : GlyphBits := g[4] ++ g[3] ++ g[2] ++ g[1] ++ g[0]

/-! ### The index map -/

/-- What a word index names (R61); every other index is unassigned (R62). -/
def hostReg (idx : Nat) : HostReg :=
  if h : 32 ≤ idx ∧ idx < 57 then .fb ⟨idx - 32, by omega⟩
  else if h : 64 ≤ idx ∧ idx < 89 then .out ⟨idx - 64, by omega⟩
  else
    match idx with
    | 0 => .cmd
    | 1 => .status
    | 2 => .regT
    | 3 => .regH
    | 4 => .regS
    | 5 => .regV
    | 6 => .color
    | 7 => .fg
    | 8 => .bg
    | 9 => .code
    | 10 => .gly
    | 11 => .bright
    | 12 => .time
    | 13 => .speed
    | 14 => .iter
    | 15 => .cidx
    | _ => .unassigned

/-- The index of an assigned register (R61); an unassigned one has none. -/
def hostIndex : HostReg → Option Nat
  | .cmd => some 0
  | .status => some 1
  | .regT => some 2
  | .regH => some 3
  | .regS => some 4
  | .regV => some 5
  | .color => some 6
  | .fg => some 7
  | .bg => some 8
  | .code => some 9
  | .gly => some 10
  | .bright => some 11
  | .time => some 12
  | .speed => some 13
  | .iter => some 14
  | .cidx => some 15
  | .fb k => some (32 + k.val)
  | .out k => some (64 + k.val)
  | .unassigned => none

/-- A read of this index is allowed: every assigned index but the write-only CMD (R61, R244). -/
def HostReg.readable : HostReg → Bool
  | .cmd => false
  | .unassigned => false
  | _ => true

/-- A write of this index is allowed: CMD and the read-write registers (R61, R244). -/
def HostReg.writable : HostReg → Bool
  | .cmd | .regT | .regH | .regS | .regV | .fg | .bg | .code | .bright | .time | .speed | .iter => true
  | .fb _ => true
  | .status | .color | .gly | .cidx | .unassigned => false
  | .out _ => false

/-- The word a read returns: the stored bits zero-extended; 0 for CMD and for an unassigned index (R63). -/
def State.readWord (s : State) : HostReg → Word
  | .cmd => 0#32
  | .status => s.status.setWidth 32
  | .regT => s.regT
  | .regH => s.regH
  | .regS => s.regS
  | .regV => s.regV
  | .color => s.color.setWidth 32
  | .fg => s.fg.setWidth 32
  | .bg => s.bg.setWidth 32
  | .code => s.code.setWidth 32
  | .gly => s.gly.setWidth 32
  | .bright => s.bright.setWidth 32
  | .time => s.time
  | .speed => s.speed
  | .iter => s.iter
  | .cidx => BitVec.ofNat 32 (charIndex s.build.message s.iter)
  | .fb k => s.fb[k].setWidth 32
  | .out k => s.out[k].setWidth 32
  | .unassigned => 0#32

/-- What a write to an index other than CMD does on a running block (R64): a read-write register keeps the stored bits
of the word and drops the rest; any other index raises EACC. -/
def State.writeReg (s : State) (v : Word) : HostReg → State
  | .regT => { s with regT := v }
  | .regH => { s with regH := v }
  | .regS => { s with regS := v }
  | .regV => { s with regV := v }
  | .fg => { s with fg := v.setWidth 24 }
  | .bg => { s with bg := v.setWidth 24 }
  | .code => { s with code := v.setWidth 8 }
  | .bright => { s with bright := v.setWidth 8 }
  | .time => { s with time := v }
  | .speed => { s with speed := v }
  | .iter => { s with iter := v }
  | .fb k => { s with fb := s.fb.set k (v.setWidth 24) }
  | .cmd | .status | .color | .gly | .cidx | .unassigned => s.raise .eacc
  | .out _ => s.raise .eacc

/-- `RegRead(idx)` (R63, R246, R248): the word is returned whether or not the block is halted; a read the map does not
allow sets EACC, on a running block only. -/
def State.regRead (s : State) (idx : Nat) : State :=
  let t := s.setLastRead (s.readWord (hostReg idx))
  if s.halt || (hostReg idx).readable then t else t.raise .eacc

end Sys2Proof.Machine
end

