-- ==== Sys2Proof/Machine/Color.lean ====
section
/-! DEFINITION. The colour generator (42_color.md): the colour law and the commands HUE and HSV. Each formula has one
primitive per written operator, in the order written (R180). -/

namespace Sys2Proof.Machine

/-- `HueOf(t)` (R181). -/
def hueOf (b : Build) (t : F) : F :=
  let a := fmul Config.twoPi t
  let sin11 := sine b a
  let s1 := fadd sin11 f1
  let sin01 := fmul s1 fHalf
  fmul f360 sin01

/-- `Band(hue, c, x)` (R183): the first band limit above the hue decides; the last band is closed at 360. -/
def band (hue c x : F) : F × F × F :=
  if flt hue f60 then (c, x, f0)
  else if flt hue f120 then (x, c, f0)
  else if flt hue f180 then (f0, c, x)
  else if flt hue f240 then (f0, x, c)
  else if flt hue f300 then (x, f0, c)
  else (c, f0, x)

/-- `c = fmul(val, sat)` (R182). -/
def chroma (sat val : F) : F := fmul val sat

/-- `x = fmul(c, w)` with `w = 1 - |((hue / 60) mod 2) - 1|` (R182). -/
def secondary (hue c : F) : F :=
  let q := fdiv hue f60
  let r := frem2 q
  let d := fsub r f1
  let v := fabs d
  let w := fsub f1 v
  fmul c w

/-- `Hsv2RgbF(hue, sat, val)` (R182). -/
def hsv2rgbF (hue sat val : F) : F × F × F :=
  let c := chroma sat val
  let x := secondary hue c
  let m := fsub val c
  let rgb := band hue c x
  (fadd rgb.1 m, fadd rgb.2.1 m, fadd rgb.2.2 m)

/-- `Quant(ch)` (R184): truncation, not rounding. -/
def quant (ch : F) : Byte := truncU8 (fmul ch f255)

/-- `Hsv2RgbU8(hue, sat, val)` (R184). -/
def hsv2rgbU8 (hue sat val : F) : Pixel :=
  let ch := hsv2rgbF hue sat val
  px (quant ch.1) (quant ch.2.1) (quant ch.2.2)

/-- `HueColor(t)` (R180): saturation and value are 1.0. -/
def hueColor (b : Build) (t : F) : Pixel := hsv2rgbU8 (hueOf b t) f1 f1

/-- HUE (R185). -/
def execHue (s : State) : Host.Outcome State Fault Refusal :=
  .next (if s.hueDomain then s.setColor (hueColor s.build s.regT) else s.raise .edom)

/-- HSV (R186). -/
def execHsv (s : State) : Host.Outcome State Fault Refusal :=
  .next (if s.hsvDomain then s.setColor (hsv2rgbU8 s.regH s.regS s.regV) else s.raise .edom)

end Sys2Proof.Machine
end

