-- ==== Sys2Proof/Machine/Output.lean ====
section
/-! DEFINITION. The brightness scaler and the Output Sink port (43_frame_output.md): the commands SCALE and EMIT. -/

namespace Sys2Proof.Machine

/-- `ScaleCh(ch, b)` (R201): the exact product, then the floor of the quotient by 256. -/
def scaleCh (ch b : Byte) : Byte := BitVec.ofNat 8 (ch.toNat * b.toNat / 256)

/-- `ScalePx(p, b)` (R201). -/
def scalePx (p : Pixel) (b : Byte) : Pixel := px (scaleCh (pxR p) b) (scaleCh (pxG p) b) (scaleCh (pxB p) b)

/-- Every entry of a buffer scaled (R202). -/
def scaleBuffer (fb : Buffer) (b : Byte) : Buffer := Vector.ofFn fun k : Fin 25 => scalePx fb[k] b

/-- The frame of a buffer: entry 0 first, each pixel as three channel values (R205). -/
def frameOf (out : Buffer) : Frame :=
  Vector.ofFn fun k : Fin 25 => { r := pxR out[k], g := pxG out[k], b := pxB out[k] }

/-- `SinkSend` of OUT (R204, R206): on `ok` the frame joins the sink record; on `fail` TransmitError is raised and
nothing is appended (R207). -/
def State.sendOut (s : State) : State :=
  match s.sinkAnswer with
  | .ok => s.accept (frameOf s.out)
  | .fail => s.raise .transmitError

/-- SCALE (R202). -/
def execScale (s : State) : Host.Outcome State Fault Refusal :=
  .next (s.setOut (scaleBuffer s.fb s.bright))

/-- EMIT (R204). -/
def execEmit (s : State) : Host.Outcome State Fault Refusal :=
  .next s.sendOut

end Sys2Proof.Machine
end

