-- ==== Sys2Proof/Machine/Raster.lean ====
section
/-! DEFINITION. The font table and the glyph rasterizer (41_raster.md): the commands GLYPH, RENDF and RENDO. -/

namespace Sys2Proof.Machine

/-- The glyph bit that paints buffer entry `k`: row `4 - (k div 5)`, bit `k mod 5` (R163). -/
def glyphBit (g : Glyph) (k : Fin 25) : Bool := g[4 - k.val / 5].getLsbD (k.val % 5)

/-- `Render(fb, g, fg, bg)` (R163): `some p` is an opaque background, `none` a transparent one. -/
def render (fb : Buffer) (g : Glyph) (fg : Pixel) (bg : Option Pixel) : Buffer :=
  Vector.ofFn fun k : Fin 25 => if glyphBit g k then fg else bg.getD fb[k]

/-- GLY takes the glyph and FB its rendering, as RENDF, RENDO and TICK do (R164, R165, R216, D28). -/
def State.paint (s : State) (g : Glyph) (fg : Pixel) (bg : Option Pixel) : State :=
  (s.setGly (packGlyph g)).setFb (render s.fb g fg bg)

/-- GLYPH (R162). -/
def execGlyph (s : State) : Host.Outcome State Fault Refusal :=
  .next (s.setGly (packGlyph (fontGlyph s.build.font s.code)))

/-- RENDF (R164). -/
def execRendf (s : State) : Host.Outcome State Fault Refusal :=
  .next (s.paint (fontGlyph s.build.font s.code) s.fg (some s.bg))

/-- RENDO (R165): BG is not read. -/
def execRendo (s : State) : Host.Outcome State Fault Refusal :=
  .next (s.paint (fontGlyph s.build.font s.code) s.fg none)

end Sys2Proof.Machine
end

