-- ==== Sys2Proof/Machine/Tick.lean ====
section
/-! DEFINITION. The tick sequencer (44_tick.md): the command TICK. -/

namespace Sys2Proof.Machine

/-- `while fgt(t, 1.0): t <- fsub(t, 1.0)` (R221) with at most `fuel` subtractions. -/
def renormalise : Nat → F → F
  | 0, t => t
  | fuel + 1, t => if fgt t f1 then renormalise fuel (fsub t f1) else t

/-- The new TIME (R216 line 7). Inside the domain of TICK one subtraction is enough (R221); one more is allowed here,
so that it is a fact to prove and not a cut. -/
def nextTime (time speed : F) : F := renormalise 2 (fadd time speed)

/-- Lines 1 to 3 of R216: the colour of TIME, the glyph of the current character painted in it on black, and the
scaled copy. -/
def State.tickFrame (s : State) : State :=
  let c := hueColor s.build s.time
  let ch := messageByte s.build.message (charIndex s.build.message s.iter)
  let s1 := (s.setColor c).loadOperands s.time c 0#24 ch
  let s2 := s1.paint (fontGlyph s1.build.font ch) c (some 0#24)
  s2.setOut (scaleBuffer s2.fb s2.bright)

/-- Lines 4 to 7 of R216: the frame is sent; a failure ends the tick there, and otherwise ITER and TIME advance. -/
def State.tickFinish (s : State) : State :=
  match s.sinkAnswer with
  | .fail => s.sendOut
  | .ok => s.sendOut.advance (s.iter + 1#32) (nextTime s.time s.speed)

/-- TICK (R216). -/
def execTick (s : State) : Host.Outcome State Fault Refusal :=
  .next (if s.tickDomain then s.tickFrame.tickFinish else s.raise .edom)

end Sys2Proof.Machine
end

