-- ==== Sys2Proof/Machine/Dispatch.lean ====
section
/-! DEFINITION. One arm per command: the index of command rules (45_other_classes.md R234). -/

namespace Sys2Proof.Machine

def exec (i : Instr) (s : State) : Host.Outcome State Fault Refusal :=
  match i with
  | .hue => Sys2Proof.Machine.execHue s
  | .hsv => Sys2Proof.Machine.execHsv s
  | .glyph => Sys2Proof.Machine.execGlyph s
  | .rendf => Sys2Proof.Machine.execRendf s
  | .rendo => Sys2Proof.Machine.execRendo s
  | .scale => Sys2Proof.Machine.execScale s
  | .emit => Sys2Proof.Machine.execEmit s
  | .tick => Sys2Proof.Machine.execTick s

end Sys2Proof.Machine
end

