-- ==== Sys2Proof/Machine/Transaction.lean ====
section
/-! DEFINITION. The host's actions (20_memory.md R63 to R65, R70; 60_exceptions.md R246, R248; 70_reset_and_hazards.md
R270). -/

namespace Sys2Proof.Machine

/-- A word written to CMD on a running block (R92): a command is executed, any other word raises ECMD. -/
def State.command (s : State) (w : Word) : Host.Outcome State Fault Refusal :=
  match decode w with
  | .ok i => exec i s
  | .error _ => .next (s.raise .ecmd)

/-- `RegWrite(idx, v)` (R64, R248): a halted block ignores it completely. -/
def State.regWrite (s : State) (idx : Nat) (v : Word) : Host.Outcome State Fault Refusal :=
  if s.halt then .next s
  else
    match hostReg idx with
    | .cmd => s.command v
    | r => .next (s.writeReg v r)

/-- One action of the host, whole and before the next (R70). A wait has no effect on the CRB (R258); an access narrower
than a word is refused (R65). -/
def State.perform (s : State) : HostAction → Host.Outcome State Fault Refusal
  | .read idx => .next (s.regRead idx)
  | .write idx v => s.regWrite idx v
  | .writeRead idx => s.regWrite idx s.lastRead
  | .wait _ => .next s
  | .reset => .next s.applyReset
  | .subWord _ _ => .refused .subWordAccess

/-- The word written to CMD of an instruction of `nbits` bits `w` (R96: one 32-bit word). -/
def commandWordOf (nbits w : Nat) : Word := BitVec.ofNat 32 (w % 2 ^ nbits)

end Sys2Proof.Machine
end

