-- ==== Sys2Proof/Machine/Step.lean ====
section
/-! DEFINITION. One step: the host's next pending action, whole (20_memory.md R70). With none pending the block is idle
and keeps all state (60_exceptions.md R262). -/

namespace Sys2Proof.Machine

def step (s : State) : Host.Outcome State Fault Refusal :=
  match s.pending with
  | [] => .next s
  | e :: rest => (s.issue rest e.answer).perform e.action

/-- The CRB fetches no code (R29): a command is the host's write of its word to CMD (R97). It is put before the host's
other pending actions, with the sink's answer the state holds. -/
def State.withFetchWord (s : State) (nbits w : Nat) : State :=
  { s with pending := { action := .write 0 (commandWordOf nbits w), answer := s.sinkAnswer } :: s.pending }

end Sys2Proof.Machine
end

