-- ==== Sys2Proof/Machine/Script.lean ====
section
/-! DEFINITION. The host-script notation as lists of host actions (30_encoding.md R97) and the pseudo-instructions
(R98). -/

namespace Sys2Proof.Machine.Script

/-- A register name as an index (R97); a name always has one, so the default is never met. -/
def indexOf (r : HostReg) : Nat := (hostIndex r).getD 0

/-- `WR <reg>, <value>` (R97). -/
def wr (r : HostReg) (v : Word) : List HostAction := [.write (indexOf r) v]

/-- `RD <reg>` (R97). -/
def rd (r : HostReg) : List HostAction := [.read (indexOf r)]

/-- A mnemonic alone on a line (R97). -/
def command (i : Instr) : List HostAction := [.write 0 (encode i)]

/-- `MOV <dst>, <src>` (R98): a read, then a write of the word read. -/
def mov (dst src : HostReg) : List HostAction := [.read (indexOf src), .writeRead (indexOf dst)]

/-- `FILL <value>` (R98): 25 writes in index order. -/
def fill (v : Word) : List HostAction := (List.range 25).map fun k => .write (32 + k) v

/-- `WAIT <ms>` (R98): no transaction. -/
def wait (ms : Nat) : List HostAction := [.wait ms]

/-- The transactions of `CHECK <reg> == <value>` (R98): the read; the claim about the word it returns is a statement
about `lastRead`. -/
def check (r : HostReg) : List HostAction := rd r

/-- One turn of the host's loop: a tick and the wait for the Timing Source (R225, R273). -/
def loopTurn : List HostAction := command .tick ++ wait Config.tickMs

/-- A script as pending events, every frame it sends answered `a`. -/
def events (a : SinkAnswer) (l : List HostAction) : List HostEvent := l.map fun x => { action := x, answer := a }

end Sys2Proof.Machine.Script
end

