-- ==== Sys2Proof/Safety.lean ====
section
/-! DEFINITION. What counts as a safe run, and the words claims are stated in: the command the next step executes, and
the invariant of 44_tick.md R222. -/

namespace Sys2Proof.Machine

/-- A halted run is never a successful run (R246). -/
def State.running (s : State) : Bool := !s.halt

/-- No error has been recorded since reset (R25). -/
def State.clean (s : State) : Bool := s.status == 0#4

/-- The action the next step performs, if the host has one pending. -/
def State.nextAction (s : State) : Option HostAction := s.pending.head?.map HostEvent.action

/-- The answer the sink gives to a frame of the next step. -/
def State.nextAnswer (s : State) : Option SinkAnswer := s.pending.head?.map HostEvent.answer

/-- The index and the word the next step writes, if it is a `RegWrite` (R64, R98). -/
def State.nextWrite (s : State) : Option (Nat × Word) :=
  match s.nextAction with
  | some (.write idx v) => some (idx, v)
  | some (.writeRead idx) => some (idx, s.lastRead)
  | _ => none

/-- The command the next step executes: a running block and a command word written to CMD (R92). -/
def State.nextCommand (s : State) : Option Instr :=
  if s.halt then none
  else
    match s.nextWrite with
    | some (idx, v) => if idx = 0 then (decode v).toOption else none
    | none => none

/-- The action writes no out-of-domain value to TIME (12) or SPEED (13) (R222); a MOV into them is not allowed. -/
def HostAction.keepsDomain : HostAction → Bool
  | .write idx v => if idx = 12 ∨ idx = 13 then in01 v else true
  | .writeRead idx => decide (idx ≠ 12 ∧ idx ≠ 13)
  | _ => true

/-- The invariant of R222: TIME and SPEED are in their domains, so is SPEED0, and no pending action takes them out. -/
def DomainInv (s : State) : Prop :=
  s.tickDomain = true ∧ s.build.speedOk = true ∧ ∀ e ∈ s.pending, e.action.keepsDomain = true

/-- SIN_ACC(u) (R141): between 0 and TWO_PI the sine unit is within `u` units in the last place of its result of the real
sine. No rule assumes it; a claim about a particular colour may take it as a premise. DESIGN CHOICE (log 23): R141 gives
`u` no type and defines no unit in the last place; here `u` is a real number, so SIN_ACC(1/2) can be said, and the unit is
the distance between neighbours at the exponent of the result, 2^-149 for a zero and a subnormal. -/
def SinAcc (b : Build) (u : ℝ) : Prop :=
  ∀ a : F, fle f0 a = true → fle a Config.twoPi = true →
    |(fVal (sine b a) : ℝ) / 2 ^ 149 - Real.sin ((fVal a : ℝ) / 2 ^ 149)| ≤ u * (2 ^ (fExp (sine b a) - 1) / 2 ^ 149)

/-- The part of the state that is the CRB's own (R20): what a halted block keeps. -/
def State.sameRegisters (s t : State) : Prop :=
  t.status = s.status ∧ t.regT = s.regT ∧ t.regH = s.regH ∧ t.regS = s.regS ∧ t.regV = s.regV ∧ t.color = s.color ∧
  t.fg = s.fg ∧ t.bg = s.bg ∧ t.code = s.code ∧ t.gly = s.gly ∧ t.bright = s.bright ∧ t.time = s.time ∧
  t.speed = s.speed ∧ t.iter = s.iter ∧ t.fb = s.fb ∧ t.out = s.out

end Sys2Proof.Machine
end

