-- ==== Sys2Proof/Certificates/Slice0/Obligations.lean ====
section
/-! DEFINITION. The statements for the provers. STATUS bits are written as 4-bit words: HALT is `1#4`, EDOM `2#4`, ECMD
`4#4`, EACC `8#4` (R25). A state written `{ s with … }` says the whole frame: every field not named is unchanged. The
queue `pending`, `sinkAnswer`, `lastRead` and the idle step are the model's form of the host interface (log 4 to 6), not
rules of the spec; `build` in State is the model's choice too (log 1). -/

open Sys2Proof Sys2Proof.Machine

/-! ### Encoding and decoding -/

/-- R91, R92, R95: words of the opcode table, and illegal ones, written out. -/
def Obligations.SampleCommandWordsDecode : Prop :=
  decode 0x00000001#32 = .ok .hue ∧ decode 0x00000002#32 = .ok .hsv ∧ decode 0x00000010#32 = .ok .glyph ∧
  decode 0x00000011#32 = .ok .rendf ∧ decode 0x00000012#32 = .ok .rendo ∧ decode 0x00000020#32 = .ok .scale ∧
  decode 0x00000021#32 = .ok .emit ∧ decode 0x00000030#32 = .ok .tick ∧
  decode 0x00000000#32 = .error (.undefinedOpcode 0x00#8) ∧ decode 0x000000FF#32 = .error (.undefinedOpcode 0xFF#8) ∧
  decode 0x00000101#32 = .error .highBitsSet ∧ decode 0x80000030#32 = .error .highBitsSet

/-- R92, R95: the decoder inverts the encoder, accepts no other word, and accepts exactly the well-formed words. -/
def Obligations.DecodeInvertsEncode : Prop :=
  (∀ i : Instr, decode (encode i) = .ok i ∧ decodeTableWord 32 (encode i).toNat = some i) ∧
  (∀ (w : Word) (i : Instr), decode w = .ok i → w = encode i) ∧
  (∀ w : Word, (∃ i : Instr, decode w = .ok i) ↔ (CommandWord.ofWord w).wf = true)

/-- R92: the order of the tests, by the value of the word: 256 and above is refused for its high bits, whatever the
opcode, and a smaller word that is no command for its opcode. -/
def Obligations.DecodeRefusesByName : Prop :=
  ∀ w : Word,
    (256 ≤ w.toNat → decode w = .error .highBitsSet) ∧
    (w.toNat < 256 → (∀ i : Instr, w ≠ encode i) → decode w = .error (.undefinedOpcode (w.setWidth 8)))

/-! ### A step -/

/-- R92, R98: a command word written to CMD of a running block runs the decoded command, after the host's action has
left the queue and the sink's answer to it is set; so does a word written back from the latest read (the queue and the
word: log 4, 5). -/
def Obligations.StepRunsDecodedCommand : Prop :=
  ∀ (s : State) (i : Instr) (w : Word) (a : SinkAnswer) (rest : List HostEvent),
    s.halt = false → decode w = .ok i →
    (s.pending = { action := .write 0 w, answer := a } :: rest → step s = exec i (s.issue rest a)) ∧
    (s.pending = { action := .writeRead 0, answer := a } :: rest → s.lastRead = w →
      step s = exec i (s.issue rest a))

/-- R243: a word that is none of the eight command words sets ECMD and changes nothing else. -/
def Obligations.UndefinedCommandSetsEcmd : Prop :=
  ∀ (s : State) (w : Word) (a : SinkAnswer) (rest : List HostEvent),
    s.halt = false → s.pending = { action := .write 0 w, answer := a } :: rest → (∀ i : Instr, w ≠ encode i) →
    step s = .next { s with pending := rest, sinkAnswer := a, status := s.status ||| 4#4 }

/-- R98: the second half of MOV is an ordinary write, of the word the latest read returned (log 5: the model's form of a
script variable). -/
def Obligations.WriteReadIsAWrite : Prop :=
  ∀ (s : State) (idx : Nat) (a : SinkAnswer) (rest : List HostEvent),
    s.pending = { action := .writeRead idx, answer := a } :: rest →
    step s = step { s with pending := { action := .write idx s.lastRead, answer := a } :: rest }

/-- R258, R262: an idle block keeps all state (that it steps at all is log 4), and so does one whose host waits. -/
def Obligations.IdleAndWaitKeepState : Prop :=
  ∀ (s : State) (ms : Nat) (a : SinkAnswer) (rest : List HostEvent),
    (s.pending = [] → step s = .next s) ∧
    (s.pending = { action := .wait ms, answer := a } :: rest → step s = .next (s.issue rest a))

/-- R65: an access narrower than a word is refused. -/
def Obligations.SubWordAccessIsRefused : Prop :=
  ∀ (s : State) (idx bits : Nat) (a : SinkAnswer) (rest : List HostEvent),
    s.pending = { action := .subWord idx bits, answer := a } :: rest → step s = .refused .subWordAccess

/-- R63, R64: every other step has a next state. That a failed send is a next state with HALT set, where R246 has a model
treat HALT as a fault, and that so no step faults, is the model's choice (log 12). -/
def Obligations.OnlySubWordAccessStops : Prop :=
  ∀ s : State,
    (∃ t, step s = .next t) ∨
    (step s = .refused .subWordAccess ∧ ∃ idx bits : Nat, s.nextAction = some (.subWord idx bits))

/-- R70: a step takes exactly the host's next action from the queue (log 4). -/
def Obligations.StepConsumesOneAction : Prop :=
  ∀ s t : State, step s = .next t → t.pending = s.pending.tail

/-- R6, R20, R270: no step changes the build parameters (which State carries by log 1). -/
def Obligations.StepKeepsBuild : Prop :=
  ∀ s t : State, step s = .next t → t.build = s.build

/-! ### Colour -/

/-- R181, R185: HUE, the hue written out operation by operation, its domain error, the two closed ends of the domain, and the exact result at +0.0 for every build, which
-0.0 shares where the sine of -0.0 is a zero of either sign. -/
def Obligations.HueComputesColor : Prop :=
  encode .hue = 0x00000001#32 ∧
  ∀ s : State,
    (in01 s.regT = true → exec .hue s = .next { s with
      color := hsv2rgbU8
        (fmul 0x43B40000#32 (fmul (fadd (sine s.build (fmul 0x40C90FDB#32 s.regT)) 0x3F800000#32) 0x3F000000#32))
        0x3F800000#32 0x3F800000#32 }) ∧
    (in01 s.regT = false → exec .hue s = .next { s with status := s.status ||| 2#4 }) ∧
    in01 0x3F800000#32 = true ∧ in01 0x80000000#32 = true ∧
    (s.regT = 0x00000000#32 → exec .hue s = .next { s with color := 0x00FFFF#24 }) ∧
    (s.regT = 0x80000000#32 → fMag (sine s.build 0x80000000#32) = 0 →
      exec .hue s = .next { s with color := 0x00FFFF#24 })

/-- R182 to R184, R186: HSV, the colour written out operation by operation on all of the domain, its domain error, its
corner cases and the document's three examples. -/
def Obligations.HsvComputesColor : Prop :=
  encode .hsv = 0x00000002#32 ∧
  (∀ s : State,
    ((inhue s.regH && in01 s.regS && in01 s.regV) = true →
      exec .hsv s = .next { s with color := hsv2rgbU8 s.regH s.regS s.regV }) ∧
    ((inhue s.regH && in01 s.regS && in01 s.regV) = false →
      exec .hsv s = .next { s with status := s.status ||| 2#4 })) ∧
  (∀ h sat val : F, inhue h = true → in01 sat = true → in01 val = true →
    (let c := fmul val sat
     let x := fmul c (fsub 0x3F800000#32
       (fabs (fsub (frem2 (fdiv h 0x42700000#32)) 0x3F800000#32)))
     let m := fsub val c
     let sector := fMag h / (60 * 2 ^ 149)
     let u : F × F × F :=
       if sector = 0 then (c, x, 0x00000000#32) else if sector = 1 then (x, c, 0x00000000#32)
       else if sector = 2 then (0x00000000#32, c, x) else if sector = 3 then (0x00000000#32, x, c)
       else if sector = 4 then (x, 0x00000000#32, c) else (c, 0x00000000#32, x)
     hsv2rgbF h sat val = (fadd u.1 m, fadd u.2.1 m, fadd u.2.2 m) ∧
     hsv2rgbU8 h sat val = px (truncU8 (fmul (fadd u.1 m) 0x437F0000#32))
       (truncU8 (fmul (fadd u.2.1 m) 0x437F0000#32)) (truncU8 (fmul (fadd u.2.2 m) 0x437F0000#32))) ∧
    (fMag sat = 0 → hsv2rgbU8 h sat val = px (quant val) (quant val) (quant val)) ∧
    (fMag val = 0 → hsv2rgbU8 h sat val = 0#24) ∧
    hsv2rgbU8 0x43B40000#32 sat val = hsv2rgbU8 0x00000000#32 sat val ∧
    hsv2rgbU8 0x80000000#32 sat val = hsv2rgbU8 0x00000000#32 sat val) ∧
  hsv2rgbU8 0x00000000#32 f1 f1 = 0xFF0000#24 ∧ hsv2rgbU8 0x42F00000#32 f1 f1 = 0x00FF00#24 ∧
  hsv2rgbU8 0x43700000#32 f1 f1 = 0x0000FF#24

/-- R183: the sector of the hue, counted in exact units of 60 degrees, picks the triple; 360 falls into the last. -/
def Obligations.BandBySector : Prop :=
  ∀ h c x : F, inhue h = true →
    let sector := fMag h / (60 * 2 ^ 149)
    (sector = 0 → band h c x = (c, x, f0)) ∧
    (sector = 1 → band h c x = (x, c, f0)) ∧
    (sector = 2 → band h c x = (f0, c, x)) ∧
    (sector = 3 → band h c x = (f0, x, c)) ∧
    (sector = 4 → band h c x = (x, f0, c)) ∧
    (5 ≤ sector → band h c x = (c, f0, x))

/-- R187: at full saturation and value one channel is 255, one is 0 and one is the truncated `x`, placed by the band. -/
def Obligations.FullSaturationChannels : Prop :=
  ∀ h : F, inhue h = true →
    let x := fsub f1 (fabs (fsub (frem2 (fdiv h f60)) f1))
    let xb := truncU8 (fmul x f255)
    let sector := fMag h / (60 * 2 ^ 149)
    hsv2rgbU8 h f1 f1 =
      (if sector = 0 then px 255#8 xb 0#8 else if sector = 1 then px xb 255#8 0#8 else if sector = 2 then px 0#8 255#8 xb
       else if sector = 3 then px 0#8 xb 255#8 else if sector = 4 then px xb 0#8 255#8 else px 255#8 0#8 xb)

/-- R184: a channel is multiplied by 255 and truncated; a channel of 1.0 gives 255, any channel below it at most 254,
and 0.5 gives 127. -/
def Obligations.QuantisationTruncates : Prop :=
  (∀ ch : F, quant ch = truncU8 (fmul ch 0x437F0000#32)) ∧
  (∀ h sat val : F, hsv2rgbU8 h sat val =
    px (quant (hsv2rgbF h sat val).1) (quant (hsv2rgbF h sat val).2.1) (quant (hsv2rgbF h sat val).2.2)) ∧
  quant 0x3F800000#32 = 255#8 ∧ quant 0x3F000000#32 = 127#8 ∧
  ∀ ch : F, in01 ch = true → ch ≠ 0x3F800000#32 → (quant ch).toNat ≤ 254

/-- R144, first part: a time in its domain gives a hue in its domain that is no negative zero, for every build. -/
def Obligations.HueOfTimeIsInRange : Prop :=
  ∀ (b : Build) (t : F), in01 t = true → inhue (hueOf b t) = true ∧ hueOf b t ≠ 0x80000000#32

/-- R144, second part: inside the domain every channel is in [0, 1] and every product that is truncated is in
[0, 255], so the truncation never saturates. -/
def Obligations.ChannelsStayInUnitInterval : Prop :=
  ∀ h sat val : F, inhue h = true → in01 sat = true → in01 val = true →
    ∀ ch ∈ [(hsv2rgbF h sat val).1, (hsv2rgbF h sat val).2.1, (hsv2rgbF h sat val).2.2],
      in01 ch = true ∧ isFinite (fmul ch f255) = true ∧
      fle f0 (fmul ch f255) = true ∧ fle (fmul ch f255) f255 = true

/-- R141: the sine unit of every build has SIN_RANGE and SIN_ZERO. -/
def Obligations.SineHasItsProperties : Prop :=
  ∀ (b : Build) (a : F),
    (isFinite a = true → isFinite (sine b a) = true ∧ fle fNeg1 (sine b a) = true ∧ fle (sine b a) f1 = true) ∧
    sine b 0x00000000#32 = 0x00000000#32

/-! ### Numbers -/

/-- R130: the value of a pattern by its fields, in units of 2^-149: bit 31 is the sign, an exponent of 255 an infinity
or a NaN. -/
def Obligations.PatternValues : Prop :=
  ∀ (neg : Bool) (e f : Nat), e ≤ 255 → f < 2 ^ 23 →
    let x : F := BitVec.ofNat 32 ((if neg then 2 ^ 31 else 0) + e * 2 ^ 23 + f)
    fSign x = neg ∧
    (e < 255 → isFinite x = true ∧ isNaN x = false ∧ isInf x = false ∧
      fVal x = (if neg then -1 else 1) * (if e = 0 then (f : Int) else (2 ^ 23 + f) * 2 ^ (e - 1))) ∧
    (e = 255 → isFinite x = false ∧ (isInf x = true ↔ f = 0) ∧ (isNaN x = true ↔ f ≠ 0))

/-- R131: correct rounding. Where `num / den` rounds to a finite number, no finite number is nearer, and of two equally
near ones the result is the one with the even fraction. -/
def Obligations.RoundingIsNearestTiesToEven : Prop :=
  ∀ (neg : Bool) (num den : Nat) (y : F), 0 < den → isFinite (roundMag neg num den) = true → isFinite y = true →
    let r := roundMag neg num den
    let dist := fun z : F => ((fMag z * den : Nat) - (num : Int)).natAbs
    fSign r = neg ∧ dist r ≤ dist y ∧ (dist r = dist y → fMag y ≠ fMag r → fFrac r % 2 = 0)

/-- R132: on finite operands each primitive is one rounding of the exact result, and the signs of zero results. -/
def Obligations.PrimitivesRoundOnce : Prop :=
  ∀ a b : F, isFinite a = true → isFinite b = true →
    (fVal a + fVal b ≠ 0 → fadd a b = roundMag (decide (fVal a + fVal b < 0)) (fVal a + fVal b).natAbs 1) ∧
    (fVal a - fVal b ≠ 0 → fsub a b = roundMag (decide (fVal a - fVal b < 0)) (fVal a - fVal b).natAbs 1) ∧
    fmul a b = roundMag (fSign a != fSign b) (fMag a * fMag b) (2 ^ 149) ∧
    (fMag b ≠ 0 → fdiv a b = roundMag (fSign a != fSign b) (fMag a * 2 ^ 149) (fMag b)) ∧
    fsub a a = 0x00000000#32 ∧ fadd 0x00000000#32 0x80000000#32 = 0x00000000#32

/-- R133: `frem2` is exact: the value is the truncated remainder by 2.0, the sign is that of the operand. -/
def Obligations.RemainderIsExact : Prop :=
  ∀ q : F, isFinite q = true →
    fVal (frem2 q) = (fVal q).tmod (2 ^ 150) ∧ fSign (frem2 q) = fSign q ∧ isFinite (frem2 q) = true ∧
    (fSign q = false → fle f0 (frem2 q) = true ∧ flt (frem2 q) 0x40000000#32 = true)

/-- R135: comparisons are those of the values, false on a NaN, with the two zeros equal. -/
def Obligations.ComparisonsAreOfValues : Prop :=
  ∀ a b : F,
    (isNaN a = true ∨ isNaN b = true → flt a b = false ∧ fle a b = false ∧ fgt a b = false) ∧
    (isNaN a = false → isNaN b = false →
      (flt a b = true ↔ fVal a < fVal b) ∧ (fle a b = true ↔ fVal a ≤ fVal b) ∧ (fgt a b = true ↔ fVal b < fVal a)) ∧
    fVal 0x80000000#32 = fVal 0x00000000#32

/-- R136: the domains by their bit patterns; -0.0 is inside both. -/
def Obligations.DomainsAsPatterns : Prop :=
  ∀ x : F,
    (in01 x = true ↔ x.toNat ≤ 0x3F800000 ∨ x = 0x80000000#32) ∧
    (inhue x = true ↔ x.toNat ≤ 0x43B40000 ∨ x = 0x80000000#32)

/-- R137: truncation is the floor inside [0, 256) and saturates outside. -/
def Obligations.TruncationIsFloor : Prop :=
  ∀ y : F,
    (isFinite y = true → fSign y = false → fMag y < 256 * 2 ^ 149 →
      (truncU8 y).toNat * 2 ^ 149 ≤ fMag y ∧ fMag y < ((truncU8 y).toNat + 1) * 2 ^ 149) ∧
    (isNaN y = false → fSign y = true → truncU8 y = 0#8) ∧
    (isNaN y = false → fSign y = false → 256 * 2 ^ 149 ≤ fMag y → truncU8 y = 255#8) ∧
    (isNaN y = true → truncU8 y = 0#8)

/-! ### Font and raster -/

/-- R162: GLYPH latches the five rows, bit `5r + j` being bit `j` of row `r`, and changes nothing else. -/
def Obligations.GlyphLatchesRows : Prop :=
  encode .glyph = 0x00000010#32 ∧
  ∀ s : State, ∃ g : GlyphBits,
    exec .glyph s = .next { s with gly := g } ∧
    ∀ r j : Fin 5, g.getLsbD (5 * r.val + j.val) = ((s.build.font[s.code.toNat]'s.code.isLt)[r]).getLsbD j.val

/-- R164: RENDF writes every entry of FB by the packed glyph, and GLY, and nothing else. -/
def Obligations.RendfPaintsEveryEntry : Prop :=
  encode .rendf = 0x00000011#32 ∧
  ∀ s : State, ∃ (g : GlyphBits) (fb : Buffer),
    exec .rendf s = .next { s with gly := g, fb := fb } ∧
    (∀ r j : Fin 5, g.getLsbD (5 * r.val + j.val) = ((s.build.font[s.code.toNat]'s.code.isLt)[r]).getLsbD j.val) ∧
    ∀ k : Fin 25, fb[k] = if g.getLsbD (5 * (4 - k.val / 5) + k.val % 5) then s.fg else s.bg

/-- R165: RENDO writes FG under the set bits of the packed glyph and leaves every other entry as it was. -/
def Obligations.RendoOverlaysSetBits : Prop :=
  encode .rendo = 0x00000012#32 ∧
  ∀ s : State, ∃ (g : GlyphBits) (fb : Buffer),
    exec .rendo s = .next { s with gly := g, fb := fb } ∧
    (∀ r j : Fin 5, g.getLsbD (5 * r.val + j.val) = ((s.build.font[s.code.toNat]'s.code.isLt)[r]).getLsbD j.val) ∧
    ∀ k : Fin 25, fb[k] = if g.getLsbD (5 * (4 - k.val / 5) + k.val % 5) then s.fg else s.fb[k]

/-- R166 (a), (c): RENDF does not depend on FB, and is an overlay on a buffer filled with BG. -/
def Obligations.FillIsOverlayOnBackground : Prop :=
  ∀ (s : State) (fb : Buffer),
    exec .rendf { s with fb := fb } = exec .rendf s ∧
    exec .rendo { s with fb := Vector.replicate 25 s.bg } = exec .rendf s

/-- R166 (b): a second RENDF or RENDO with unchanged operands changes nothing. -/
def Obligations.RenderIsIdempotent : Prop :=
  ∀ s t : State,
    (exec .rendf s = .next t → exec .rendf t = .next t) ∧ (exec .rendo s = .next t → exec .rendo t = .next t)

/-- R166 (d): two overlays with one foreground paint the union of their set bits. -/
def Obligations.OverlaysPaintUnion : Prop :=
  ∀ (s : State) (c : Byte), ∃ t u : State,
    exec .rendo s = .next t ∧ exec .rendo { t with code := c } = .next u ∧
    ∀ k : Fin 25, u.fb[k] =
      if t.gly.getLsbD (5 * (4 - k.val / 5) + k.val % 5) || u.gly.getLsbD (5 * (4 - k.val / 5) + k.val % 5)
      then s.fg else s.fb[k]

/-! ### Brightness and output -/

/-- R201, R202: SCALE writes each channel of OUT from the same channel of FB, and nothing else; a numerator of 0 or 1
blanks it, and no channel of it is 255. -/
def Obligations.ScaleWritesOut : Prop :=
  encode .scale = 0x00000020#32 ∧
  ∀ s : State, ∃ out : Buffer,
    exec .scale s = .next { s with out := out } ∧
    (∀ k : Fin 25,
      (pxR out[k]).toNat = (pxR s.fb[k]).toNat * s.bright.toNat / 256 ∧
      (pxG out[k]).toNat = (pxG s.fb[k]).toNat * s.bright.toNat / 256 ∧
      (pxB out[k]).toNat = (pxB s.fb[k]).toNat * s.bright.toNat / 256 ∧
      pxR out[k] ≠ 255#8 ∧ pxG out[k] ≠ 255#8 ∧ pxB out[k] ≠ 255#8) ∧
    (s.bright.toNat ≤ 1 → ∀ k : Fin 25, out[k] = 0#24)

/-- R203: monotonic in both arguments, below the channel unless it is 0, zero exactly below 256; SCALE twice is SCALE. -/
def Obligations.ScaleChannelLaws : Prop :=
  (∀ a b c : Byte, a.toNat ≤ b.toNat → (scaleCh a c).toNat ≤ (scaleCh b c).toNat ∧
    (scaleCh c a).toNat ≤ (scaleCh c b).toNat) ∧
  (∀ a b : Byte, (scaleCh a b).toNat ≤ a.toNat ∧ (scaleCh a b = a ↔ a = 0#8) ∧
    (scaleCh a b = 0#8 ↔ a.toNat * b.toNat < 256)) ∧
  (∀ s t : State, exec .scale s = .next t → exec .scale t = .next t)

/-- R145 (b): the scaled channel is bits 15 to 8 of the 16-bit product. -/
def Obligations.ScaleChannelIsHighByte : Prop :=
  ∀ a b : Byte, scaleCh a b = (a.setWidth 16 * b.setWidth 16).extractLsb' 8 8 ∧ (scaleCh a b).toNat ≤ 254

/-- R204, R205, R207: EMIT hands the sink OUT, entry 0 first, as channel triples; `ok` appends the frame to the record
and changes nothing else, `fail` sets HALT and appends nothing. -/
def Obligations.EmitHandsOverOut : Prop :=
  encode .emit = 0x00000021#32 ∧
  ∀ s : State, ∃ f : Frame,
    (∀ k : Fin 25, f[k].r = s.out[k].extractLsb' 16 8 ∧ f[k].g = s.out[k].extractLsb' 8 8 ∧
      f[k].b = s.out[k].extractLsb' 0 8) ∧
    (s.sinkAnswer = .ok → exec .emit s = .next { s with sinkRecord := s.sinkRecord ++ [f] }) ∧
    (s.sinkAnswer = .fail → exec .emit s = .next { s with status := s.status ||| 1#4 })

/-! ### Tick -/

/-- R216 to R218, R221: TICK, every line: the domain error; the frame of the current character, a byte of the message, in
the colour of TIME (R181, written out) on black, scaled; on `ok` the frame is recorded, ITER and TIME advance, with one subtraction at most; on `fail` HALT is
set and neither advances. -/
def Obligations.TickPerformsItsLines : Prop :=
  encode .tick = 0x00000030#32 ∧
  ∀ s : State,
    ((in01 s.time && in01 s.speed) = false → exec .tick s = .next { s with status := s.status ||| 2#4 }) ∧
    ((in01 s.time && in01 s.speed) = true →
      let msg := s.build.message.first :: s.build.message.rest
      ∃ ch : Byte, msg[s.iter.toNat / 30 % msg.length]? = some ch ∧
      let c := hsv2rgbU8
        (fmul 0x43B40000#32 (fmul (fadd (sine s.build (fmul 0x40C90FDB#32 s.time)) 0x3F800000#32) 0x3F000000#32))
        0x3F800000#32 0x3F800000#32
      let g := fontGlyph s.build.font ch
      let fb := render s.fb g c (some 0#24)
      let out := scaleBuffer fb s.bright
      let y := fadd s.time s.speed
      let painted : State := { s with
        regT := s.time, color := c, fg := c, bg := 0#24, code := ch, gly := packGlyph g, fb := fb, out := out }
      (s.sinkAnswer = .fail → exec .tick s = .next { painted with status := s.status ||| 1#4 }) ∧
      (s.sinkAnswer = .ok → exec .tick s = .next { painted with
        sinkRecord := s.sinkRecord ++ [frameOf out], iter := s.iter + 1#32,
        time := if fgt y f1 then fsub y f1 else y }))

/-- R216: TICK is the sequence MOV T, TIME; HUE; MOV FG, COLOR; WR BG, 0; WR CODE, byte; RENDF; SCALE; EMIT, and then
the state advance when the sink accepted the frame. -/
def Obligations.TickEqualsCommandSequence : Prop :=
  ∀ s : State, s.tickDomain = true → ∃ s1 s2 s3 s4 : State,
    exec .hue { s with regT := s.time } = .next s1 ∧
    exec .rendf { s1 with
      fg := s1.color, bg := 0#24,
      code := messageByte s.build.message (charIndex s.build.message s.iter) } = .next s2 ∧
    exec .scale s2 = .next s3 ∧
    exec .emit s3 = .next s4 ∧
    (s.sinkAnswer = .fail → exec .tick s = .next s4) ∧
    (s.sinkAnswer = .ok →
      exec .tick s = .next { s4 with iter := s.iter + 1#32, time := nextTime s.time s.speed })

/-- R221, R222, R224: a sum above 1.0 is reduced once, exactly; a sum of at most 1.0 is left as it is; the new time is in
[0, 1], and is -0.0 only if both operands were; a speed of 0 leaves TIME unchanged, but for the sign of a zero (log 20). -/
def Obligations.TimeWrapsExactlyOnce : Prop :=
  ∀ a b : F, in01 a = true → in01 b = true →
    let y := fadd a b
    (fgt y f1 = true → nextTime a b = fsub y f1 ∧ fVal (fsub y f1) = fVal y - fVal f1 ∧ fgt (fsub y f1) f1 = false) ∧
    (fgt y f1 = false → nextTime a b = y) ∧
    in01 (nextTime a b) = true ∧
    (nextTime a b = 0x80000000#32 → a = 0x80000000#32 ∧ b = 0x80000000#32) ∧
    nextTime a f0 = (if a = 0x80000000#32 then f0 else a)

/-- R9, R31, R223: the length of the message and its bytes; and between wraps of ITER the index at tick n is (n div 30) mod L: below L, the same for 30 ticks, then the next,
cyclically, and back after 30 · L ticks. -/
def Obligations.CharacterIndexCycles : Prop :=
  ∀ (m : Message) (n : Nat),
    messageLength m = m.rest.length + 1 ∧
    (∀ i : Nat, i < messageLength m → (m.first :: m.rest)[i]? = some (messageByte m i)) ∧
    (n < 2 ^ 32 → charIndex m (BitVec.ofNat 32 n) = n / 30 % messageLength m) ∧
    charIndex m (BitVec.ofNat 32 n) < messageLength m ∧
    (n + 1 < 2 ^ 32 →
      charIndex m (BitVec.ofNat 32 (n + 1)) =
        if (n + 1) % 30 = 0 then (charIndex m (BitVec.ofNat 32 n) + 1) % messageLength m
        else charIndex m (BitVec.ofNat 32 n)) ∧
    (n + 30 * messageLength m < 2 ^ 32 →
      charIndex m (BitVec.ofNat 32 (n + 30 * messageLength m)) = charIndex m (BitVec.ofNat 32 n))

/-- R219: the wrap of ITER is silent, and a 22-byte message then jumps from index 4 to index 0. -/
def Obligations.IterationWrapsSilently : Prop :=
  (∀ s : State, s.tickDomain = true → s.sinkAnswer = .ok → s.iter = 0xFFFFFFFF#32 →
    ∃ t, exec .tick s = .next t ∧ t.iter = 0#32 ∧ t.status = s.status) ∧
  (∀ m : Message, messageLength m = 22 → charIndex m 0xFFFFFFFF#32 = 4 ∧ charIndex m 0#32 = 0)

/-! ### The host's transactions -/

/-- R61: the index map and its inverse agree, and an index is unassigned exactly where the table has no row. -/
def Obligations.IndexMapIsTheTable : Prop :=
  (∀ (r : HostReg) (idx : Nat), hostIndex r = some idx → hostReg idx = r) ∧
  (∀ idx : Nat, hostReg idx = .unassigned ↔ (16 ≤ idx ∧ idx ≤ 31) ∨ (57 ≤ idx ∧ idx ≤ 63) ∨ 89 ≤ idx) ∧
  (∀ (idx : Nat) (r : HostReg), hostReg idx = r → r ≠ .unassigned → hostIndex r = some idx)

/-- R63: the word each index reads as, on a running or a halted block; nothing else changes but EACC on a running block
whose index may not be read; and a second read of the index returns the same word and changes nothing more. -/
def Obligations.ReadReturnsStoredBits : Prop :=
  ∀ (s : State) (idx : Nat) (a : SinkAnswer) (rest : List HostEvent),
    s.pending = { action := .read idx, answer := a } :: rest → ∃ (w : Word) (t : State),
      t = { s with
        pending := rest, sinkAnswer := a, lastRead := w,
        status := if s.halt = false ∧
            (idx = 0 ∨ (16 ≤ idx ∧ idx ≤ 31) ∨ (57 ≤ idx ∧ idx ≤ 63) ∨ 89 ≤ idx)
          then s.status ||| 8#4 else s.status } ∧
      step s = .next t ∧
      (idx = 0 ∨ (16 ≤ idx ∧ idx ≤ 31) ∨ (57 ≤ idx ∧ idx ≤ 63) ∨ 89 ≤ idx → w = 0#32) ∧
      (idx = 1 → w.toNat = s.status.toNat) ∧ (idx = 2 → w = s.regT) ∧ (idx = 3 → w = s.regH) ∧
      (idx = 4 → w = s.regS) ∧ (idx = 5 → w = s.regV) ∧ (idx = 6 → w.toNat = s.color.toNat) ∧
      (idx = 7 → w.toNat = s.fg.toNat) ∧ (idx = 8 → w.toNat = s.bg.toNat) ∧ (idx = 9 → w.toNat = s.code.toNat) ∧
      (idx = 10 → w.toNat = s.gly.toNat) ∧ (idx = 11 → w.toNat = s.bright.toNat) ∧ (idx = 12 → w = s.time) ∧
      (idx = 13 → w = s.speed) ∧ (idx = 14 → w = s.iter) ∧
      (idx = 15 → w.toNat = s.iter.toNat / 30 % messageLength s.build.message) ∧
      (∀ k : Fin 25, (idx = 32 + k.val → w.toNat = s.fb[k].toNat) ∧ (idx = 64 + k.val → w.toNat = s.out[k].toNat)) ∧
      (∀ (b : SinkAnswer) (rest' : List HostEvent), rest = { action := .read idx, answer := b } :: rest' →
        step t = .next (t.issue rest' b))

/-- R64, R92, R246: what a write to each index does on a running block, bits outside the field dropped; a halted block
ignores it. -/
def Obligations.WriteStoresField : Prop :=
  ∀ (s : State) (idx : Nat) (v : Word) (a : SinkAnswer) (rest : List HostEvent),
    s.pending = { action := .write idx v, answer := a } :: rest →
    (s.halt = true → step s = .next (s.issue rest a)) ∧
    (s.halt = false →
      (idx = 0 → ∀ i, decode v = .ok i → step s = exec i (s.issue rest a)) ∧
      (idx = 2 → step s = .next { s with pending := rest, sinkAnswer := a, regT := v }) ∧
      (idx = 3 → step s = .next { s with pending := rest, sinkAnswer := a, regH := v }) ∧
      (idx = 4 → step s = .next { s with pending := rest, sinkAnswer := a, regS := v }) ∧
      (idx = 5 → step s = .next { s with pending := rest, sinkAnswer := a, regV := v }) ∧
      (idx = 7 → step s = .next { s with pending := rest, sinkAnswer := a, fg := v.extractLsb' 0 24 }) ∧
      (idx = 8 → step s = .next { s with pending := rest, sinkAnswer := a, bg := v.extractLsb' 0 24 }) ∧
      (idx = 9 → step s = .next { s with pending := rest, sinkAnswer := a, code := v.extractLsb' 0 8 }) ∧
      (idx = 11 → step s = .next { s with pending := rest, sinkAnswer := a, bright := v.extractLsb' 0 8 }) ∧
      (idx = 12 → step s = .next { s with pending := rest, sinkAnswer := a, time := v }) ∧
      (idx = 13 → step s = .next { s with pending := rest, sinkAnswer := a, speed := v }) ∧
      (idx = 14 → step s = .next { s with pending := rest, sinkAnswer := a, iter := v }) ∧
      (∀ k : Fin 25, idx = 32 + k.val →
        step s = .next { s with pending := rest, sinkAnswer := a, fb := s.fb.set k (v.extractLsb' 0 24) }) ∧
      (idx = 1 ∨ idx = 6 ∨ idx = 10 ∨ (15 ≤ idx ∧ idx ≤ 31) ∨ 57 ≤ idx →
        step s = .next { s with pending := rest, sinkAnswer := a, status := s.status ||| 8#4 }))

/-- R244: every access the map does not allow sets EACC on a running block and changes nothing else; a read returns 0. -/
def Obligations.IllegalAccessSetsEacc : Prop :=
  ∀ (s : State) (idx : Nat) (v : Word) (a : SinkAnswer) (rest : List HostEvent), s.halt = false →
    (s.pending = { action := .read idx, answer := a } :: rest →
      idx = 0 ∨ (16 ≤ idx ∧ idx ≤ 31) ∨ (57 ≤ idx ∧ idx ≤ 63) ∨ 89 ≤ idx →
      step s = .next { s with pending := rest, sinkAnswer := a, status := s.status ||| 8#4, lastRead := 0#32 }) ∧
    (s.pending = { action := .write idx v, answer := a } :: rest →
      idx = 1 ∨ idx = 6 ∨ idx = 10 ∨ idx = 15 ∨ (64 ≤ idx ∧ idx ≤ 88) ∨
        (16 ≤ idx ∧ idx ≤ 31) ∨ (57 ≤ idx ∧ idx ≤ 63) ∨ 89 ≤ idx →
      step s = .next { s with pending := rest, sinkAnswer := a, status := s.status ||| 8#4 })

/-- R98: MOV FG, COLOR is a read of COLOR and a write of the word read to FG (log 4, 5). -/
def Obligations.MovCopiesColorToForeground : Prop :=
  ∀ (s : State) (a : SinkAnswer), s.halt = false →
    s.pending = Script.events a (Script.mov .fg .color) →
    Host.Core.run Sys2Proof.core 2 s =
      .next { s with fg := s.color, lastRead := s.color.setWidth 32, pending := [], sinkAnswer := a }

/-! ### Errors and the halt -/

/-- R25: a flag that is set stays set through every step but a reset. -/
def Obligations.FlagsAreSticky : Prop :=
  ∀ (s t : State) (c : Cause), step s = .next t → s.nextAction ≠ some .reset → s.flag c = true → t.flag c = true

/-- R248: no transaction raises two errors: a step but a reset leaves STATUS or sets one flag of it. -/
def Obligations.AtMostOneErrorPerStep : Prop :=
  ∀ s t : State, step s = .next t → s.nextAction ≠ some .reset →
    t.status = s.status ∨ ∃ c : Cause, t.status = statusWith s.status c

/-- R240: what can set each flag. -/
def Obligations.FlagsHaveTheirOrigins : Prop :=
  ∀ s t : State, step s = .next t →
    (s.flag .transmitError = false → t.flag .transmitError = true →
      (s.nextCommand = some .emit ∨ s.nextCommand = some .tick) ∧ s.nextAnswer = some .fail) ∧
    (s.flag .edom = false → t.flag .edom = true →
      (s.nextCommand = some .hue ∧ s.hueDomain = false) ∨ (s.nextCommand = some .hsv ∧ s.hsvDomain = false) ∨
      (s.nextCommand = some .tick ∧ s.tickDomain = false)) ∧
    (s.flag .ecmd = false → t.flag .ecmd = true →
      ∃ w : Word, s.nextWrite = some (0, w) ∧ ∀ i : Instr, w ≠ encode i) ∧
    (s.flag .eacc = false → t.flag .eacc = true →
      (∃ idx, s.nextAction = some (.read idx) ∧ (hostReg idx).readable = false) ∨
      (∃ idx v, s.nextWrite = some (idx, v) ∧ (hostReg idx).writable = false))

/-- R246, R250: a halted block keeps every register and the sink record through every step but a reset, and stays
halted; a read is still performed. -/
def Obligations.HaltedBlockOnlyAnswersReads : Prop :=
  ∀ s t : State, s.halt = true → step s = .next t → s.nextAction ≠ some .reset →
    State.sameRegisters s t ∧ t.sinkRecord = s.sinkRecord ∧ t.halt = true ∧
    (∀ idx, s.nextAction = some (.read idx) → t.lastRead = s.readWord (hostReg idx)) ∧
    ((∀ idx, s.nextAction ≠ some (.read idx)) → t.lastRead = s.lastRead)

/-- R207, R206: the sink record grows only by a frame the sink accepts from EMIT or TICK, and then by that of OUT; no
step, reset included, removes a frame. -/
def Obligations.SinkRecordOnlyGrows : Prop :=
  ∀ s t : State, step s = .next t →
    t.sinkRecord = s.sinkRecord ∨
    ((s.nextCommand = some .emit ∨ s.nextCommand = some .tick) ∧ s.nextAnswer = some .ok ∧
      t.sinkRecord = s.sinkRecord ++ [frameOf t.out])

/-- R21: no step but these commands, and reset, writes the registers a host cannot write: COLOR, GLY and OUT. -/
def Obligations.ResultRegistersHaveTheirWriters : Prop :=
  ∀ s t : State, step s = .next t → s.nextAction ≠ some .reset →
    (t.color ≠ s.color → s.nextCommand ∈ [some .hue, some .hsv, some .tick]) ∧
    (t.gly ≠ s.gly → s.nextCommand ∈ [some .glyph, some .rendf, some .rendo, some .tick]) ∧
    (t.out ≠ s.out → s.nextCommand ∈ [some .scale, some .tick])

/-- R21: the operand registers no command writes change by a host write to their own index and by nothing else, reset
apart: H, S, V, BRIGHT and SPEED. -/
def Obligations.OnlyTheHostWritesOperands : Prop :=
  ∀ s t : State, step s = .next t → s.nextAction ≠ some .reset →
    (t.regH ≠ s.regH → ∃ v, s.nextWrite = some (3, v)) ∧
    (t.regS ≠ s.regS → ∃ v, s.nextWrite = some (4, v)) ∧
    (t.regV ≠ s.regV → ∃ v, s.nextWrite = some (5, v)) ∧
    (t.bright ≠ s.bright → ∃ v, s.nextWrite = some (11, v)) ∧
    (t.speed ≠ s.speed → ∃ v, s.nextWrite = some (13, v))

/-! ### Reset and the invariant -/

/-- R33: what reset gives a value. The values of the other registers are free and nothing is said of them. -/
def Obligations.ResetState : Prop :=
  State.reset.status = 0#4 ∧ State.reset.time = 0x00000000#32 ∧ State.reset.iter = 0#32 ∧
  State.reset.readWord .cidx = 0#32 ∧ State.reset.speed = State.reset.build.speed0 ∧
  State.reset.bright = State.reset.build.bright0 ∧ State.reset.build.wf = true

/-- R271, R250: the reset event, at any time, a halted block included: the values of R33; the build and the sink record
stay, and so do the host's own pending actions. -/
def Obligations.ResetEvent : Prop :=
  ∀ (s : State) (a : SinkAnswer) (rest : List HostEvent),
    s.pending = { action := .reset, answer := a } :: rest → ∃ t : State,
      step s = .next t ∧ t.status = 0#4 ∧ t.halt = false ∧ t.time = 0x00000000#32 ∧ t.iter = 0#32 ∧
      t.readWord .cidx = 0#32 ∧ t.speed = s.build.speed0 ∧ t.bright = s.build.bright0 ∧
      t.build = s.build ∧ t.sinkRecord = s.sinkRecord ∧ t.pending = rest

/-- R222: every step keeps the invariant that TIME and SPEED are in their domains, as long as the host writes neither
outside it. -/
def Obligations.StepKeepsTimeInDomain : Prop :=
  ∀ s t : State, DomainInv s → step s = .next t → DomainInv t

/-- R222: the invariant holds at reset. -/
def Obligations.ResetHasTimeInDomain : Prop := DomainInv State.reset

/-- R216, R222: under the invariant no TICK raises EDOM: each one paints the glyph of its character in the colour of TIME
on black, scales it and hands the frame over. -/
def Obligations.TickNeverRaisesEdomInDomain : Prop :=
  ∀ s t : State, DomainInv s → s.nextCommand = some .tick → step s = .next t →
    t.flag .edom = s.flag .edom ∧ t.regT = s.time ∧
    t.color = hsv2rgbU8 (hueOf s.build s.time) f1 f1 ∧ t.fg = t.color ∧ t.bg = 0#24 ∧
    t.code = messageByte s.build.message (charIndex s.build.message s.iter) ∧
    (∀ r j : Fin 5, t.gly.getLsbD (5 * r.val + j.val) = ((s.build.font[t.code.toNat]'t.code.isLt)[r]).getLsbD j.val) ∧
    (∀ k : Fin 25, t.fb[k] = (if t.gly.getLsbD (5 * (4 - k.val / 5) + k.val % 5) then t.fg else t.bg) ∧
      t.out[k] = scalePx t.fb[k] s.bright) ∧
    (s.nextAnswer = some .ok → t.iter = s.iter + 1#32 ∧ t.sinkRecord = s.sinkRecord ++ [frameOf t.out]) ∧
    (s.nextAnswer = some .fail → t.halt = true ∧ t.iter = s.iter ∧ t.time = s.time)
end

