-- ==== Sys2Proof/Laws/State.lean ====
section
/-! SUPPORT. One lemma per field per named update of Machine/Ops.lean, true by definition. -/

namespace Sys2Proof.Machine

@[simp] theorem State.raise_status (s : State) (c : Cause) : (s.raise c).status = statusWith s.status c := rfl
@[simp] theorem State.raise_regT (s : State) (c : Cause) : (s.raise c).regT = s.regT := rfl
@[simp] theorem State.raise_regH (s : State) (c : Cause) : (s.raise c).regH = s.regH := rfl
@[simp] theorem State.raise_regS (s : State) (c : Cause) : (s.raise c).regS = s.regS := rfl
@[simp] theorem State.raise_regV (s : State) (c : Cause) : (s.raise c).regV = s.regV := rfl
@[simp] theorem State.raise_color (s : State) (c : Cause) : (s.raise c).color = s.color := rfl
@[simp] theorem State.raise_fg (s : State) (c : Cause) : (s.raise c).fg = s.fg := rfl
@[simp] theorem State.raise_bg (s : State) (c : Cause) : (s.raise c).bg = s.bg := rfl
@[simp] theorem State.raise_code (s : State) (c : Cause) : (s.raise c).code = s.code := rfl
@[simp] theorem State.raise_gly (s : State) (c : Cause) : (s.raise c).gly = s.gly := rfl
@[simp] theorem State.raise_bright (s : State) (c : Cause) : (s.raise c).bright = s.bright := rfl
@[simp] theorem State.raise_time (s : State) (c : Cause) : (s.raise c).time = s.time := rfl
@[simp] theorem State.raise_speed (s : State) (c : Cause) : (s.raise c).speed = s.speed := rfl
@[simp] theorem State.raise_iter (s : State) (c : Cause) : (s.raise c).iter = s.iter := rfl
@[simp] theorem State.raise_fb (s : State) (c : Cause) : (s.raise c).fb = s.fb := rfl
@[simp] theorem State.raise_out (s : State) (c : Cause) : (s.raise c).out = s.out := rfl
@[simp] theorem State.raise_build (s : State) (c : Cause) : (s.raise c).build = s.build := rfl
@[simp] theorem State.raise_resets (s : State) (c : Cause) : (s.raise c).resets = s.resets := rfl
@[simp] theorem State.raise_pending (s : State) (c : Cause) : (s.raise c).pending = s.pending := rfl
@[simp] theorem State.raise_sinkAnswer (s : State) (c : Cause) : (s.raise c).sinkAnswer = s.sinkAnswer := rfl
@[simp] theorem State.raise_sinkRecord (s : State) (c : Cause) : (s.raise c).sinkRecord = s.sinkRecord := rfl
@[simp] theorem State.raise_lastRead (s : State) (c : Cause) : (s.raise c).lastRead = s.lastRead := rfl

@[simp] theorem State.setColor_status (s : State) (p : Pixel) : (s.setColor p).status = s.status := rfl
@[simp] theorem State.setColor_regT (s : State) (p : Pixel) : (s.setColor p).regT = s.regT := rfl
@[simp] theorem State.setColor_regH (s : State) (p : Pixel) : (s.setColor p).regH = s.regH := rfl
@[simp] theorem State.setColor_regS (s : State) (p : Pixel) : (s.setColor p).regS = s.regS := rfl
@[simp] theorem State.setColor_regV (s : State) (p : Pixel) : (s.setColor p).regV = s.regV := rfl
@[simp] theorem State.setColor_color (s : State) (p : Pixel) : (s.setColor p).color = p := rfl
@[simp] theorem State.setColor_fg (s : State) (p : Pixel) : (s.setColor p).fg = s.fg := rfl
@[simp] theorem State.setColor_bg (s : State) (p : Pixel) : (s.setColor p).bg = s.bg := rfl
@[simp] theorem State.setColor_code (s : State) (p : Pixel) : (s.setColor p).code = s.code := rfl
@[simp] theorem State.setColor_gly (s : State) (p : Pixel) : (s.setColor p).gly = s.gly := rfl
@[simp] theorem State.setColor_bright (s : State) (p : Pixel) : (s.setColor p).bright = s.bright := rfl
@[simp] theorem State.setColor_time (s : State) (p : Pixel) : (s.setColor p).time = s.time := rfl
@[simp] theorem State.setColor_speed (s : State) (p : Pixel) : (s.setColor p).speed = s.speed := rfl
@[simp] theorem State.setColor_iter (s : State) (p : Pixel) : (s.setColor p).iter = s.iter := rfl
@[simp] theorem State.setColor_fb (s : State) (p : Pixel) : (s.setColor p).fb = s.fb := rfl
@[simp] theorem State.setColor_out (s : State) (p : Pixel) : (s.setColor p).out = s.out := rfl
@[simp] theorem State.setColor_build (s : State) (p : Pixel) : (s.setColor p).build = s.build := rfl
@[simp] theorem State.setColor_resets (s : State) (p : Pixel) : (s.setColor p).resets = s.resets := rfl
@[simp] theorem State.setColor_pending (s : State) (p : Pixel) : (s.setColor p).pending = s.pending := rfl
@[simp] theorem State.setColor_sinkAnswer (s : State) (p : Pixel) : (s.setColor p).sinkAnswer = s.sinkAnswer := rfl
@[simp] theorem State.setColor_sinkRecord (s : State) (p : Pixel) : (s.setColor p).sinkRecord = s.sinkRecord := rfl
@[simp] theorem State.setColor_lastRead (s : State) (p : Pixel) : (s.setColor p).lastRead = s.lastRead := rfl

@[simp] theorem State.setGly_status (s : State) (g : GlyphBits) : (s.setGly g).status = s.status := rfl
@[simp] theorem State.setGly_regT (s : State) (g : GlyphBits) : (s.setGly g).regT = s.regT := rfl
@[simp] theorem State.setGly_regH (s : State) (g : GlyphBits) : (s.setGly g).regH = s.regH := rfl
@[simp] theorem State.setGly_regS (s : State) (g : GlyphBits) : (s.setGly g).regS = s.regS := rfl
@[simp] theorem State.setGly_regV (s : State) (g : GlyphBits) : (s.setGly g).regV = s.regV := rfl
@[simp] theorem State.setGly_color (s : State) (g : GlyphBits) : (s.setGly g).color = s.color := rfl
@[simp] theorem State.setGly_fg (s : State) (g : GlyphBits) : (s.setGly g).fg = s.fg := rfl
@[simp] theorem State.setGly_bg (s : State) (g : GlyphBits) : (s.setGly g).bg = s.bg := rfl
@[simp] theorem State.setGly_code (s : State) (g : GlyphBits) : (s.setGly g).code = s.code := rfl
@[simp] theorem State.setGly_gly (s : State) (g : GlyphBits) : (s.setGly g).gly = g := rfl
@[simp] theorem State.setGly_bright (s : State) (g : GlyphBits) : (s.setGly g).bright = s.bright := rfl
@[simp] theorem State.setGly_time (s : State) (g : GlyphBits) : (s.setGly g).time = s.time := rfl
@[simp] theorem State.setGly_speed (s : State) (g : GlyphBits) : (s.setGly g).speed = s.speed := rfl
@[simp] theorem State.setGly_iter (s : State) (g : GlyphBits) : (s.setGly g).iter = s.iter := rfl
@[simp] theorem State.setGly_fb (s : State) (g : GlyphBits) : (s.setGly g).fb = s.fb := rfl
@[simp] theorem State.setGly_out (s : State) (g : GlyphBits) : (s.setGly g).out = s.out := rfl
@[simp] theorem State.setGly_build (s : State) (g : GlyphBits) : (s.setGly g).build = s.build := rfl
@[simp] theorem State.setGly_resets (s : State) (g : GlyphBits) : (s.setGly g).resets = s.resets := rfl
@[simp] theorem State.setGly_pending (s : State) (g : GlyphBits) : (s.setGly g).pending = s.pending := rfl
@[simp] theorem State.setGly_sinkAnswer (s : State) (g : GlyphBits) : (s.setGly g).sinkAnswer = s.sinkAnswer := rfl
@[simp] theorem State.setGly_sinkRecord (s : State) (g : GlyphBits) : (s.setGly g).sinkRecord = s.sinkRecord := rfl
@[simp] theorem State.setGly_lastRead (s : State) (g : GlyphBits) : (s.setGly g).lastRead = s.lastRead := rfl

@[simp] theorem State.setFb_status (s : State) (b : Buffer) : (s.setFb b).status = s.status := rfl
@[simp] theorem State.setFb_regT (s : State) (b : Buffer) : (s.setFb b).regT = s.regT := rfl
@[simp] theorem State.setFb_regH (s : State) (b : Buffer) : (s.setFb b).regH = s.regH := rfl
@[simp] theorem State.setFb_regS (s : State) (b : Buffer) : (s.setFb b).regS = s.regS := rfl
@[simp] theorem State.setFb_regV (s : State) (b : Buffer) : (s.setFb b).regV = s.regV := rfl
@[simp] theorem State.setFb_color (s : State) (b : Buffer) : (s.setFb b).color = s.color := rfl
@[simp] theorem State.setFb_fg (s : State) (b : Buffer) : (s.setFb b).fg = s.fg := rfl
@[simp] theorem State.setFb_bg (s : State) (b : Buffer) : (s.setFb b).bg = s.bg := rfl
@[simp] theorem State.setFb_code (s : State) (b : Buffer) : (s.setFb b).code = s.code := rfl
@[simp] theorem State.setFb_gly (s : State) (b : Buffer) : (s.setFb b).gly = s.gly := rfl
@[simp] theorem State.setFb_bright (s : State) (b : Buffer) : (s.setFb b).bright = s.bright := rfl
@[simp] theorem State.setFb_time (s : State) (b : Buffer) : (s.setFb b).time = s.time := rfl
@[simp] theorem State.setFb_speed (s : State) (b : Buffer) : (s.setFb b).speed = s.speed := rfl
@[simp] theorem State.setFb_iter (s : State) (b : Buffer) : (s.setFb b).iter = s.iter := rfl
@[simp] theorem State.setFb_fb (s : State) (b : Buffer) : (s.setFb b).fb = b := rfl
@[simp] theorem State.setFb_out (s : State) (b : Buffer) : (s.setFb b).out = s.out := rfl
@[simp] theorem State.setFb_build (s : State) (b : Buffer) : (s.setFb b).build = s.build := rfl
@[simp] theorem State.setFb_resets (s : State) (b : Buffer) : (s.setFb b).resets = s.resets := rfl
@[simp] theorem State.setFb_pending (s : State) (b : Buffer) : (s.setFb b).pending = s.pending := rfl
@[simp] theorem State.setFb_sinkAnswer (s : State) (b : Buffer) : (s.setFb b).sinkAnswer = s.sinkAnswer := rfl
@[simp] theorem State.setFb_sinkRecord (s : State) (b : Buffer) : (s.setFb b).sinkRecord = s.sinkRecord := rfl
@[simp] theorem State.setFb_lastRead (s : State) (b : Buffer) : (s.setFb b).lastRead = s.lastRead := rfl

@[simp] theorem State.setOut_status (s : State) (b : Buffer) : (s.setOut b).status = s.status := rfl
@[simp] theorem State.setOut_regT (s : State) (b : Buffer) : (s.setOut b).regT = s.regT := rfl
@[simp] theorem State.setOut_regH (s : State) (b : Buffer) : (s.setOut b).regH = s.regH := rfl
@[simp] theorem State.setOut_regS (s : State) (b : Buffer) : (s.setOut b).regS = s.regS := rfl
@[simp] theorem State.setOut_regV (s : State) (b : Buffer) : (s.setOut b).regV = s.regV := rfl
@[simp] theorem State.setOut_color (s : State) (b : Buffer) : (s.setOut b).color = s.color := rfl
@[simp] theorem State.setOut_fg (s : State) (b : Buffer) : (s.setOut b).fg = s.fg := rfl
@[simp] theorem State.setOut_bg (s : State) (b : Buffer) : (s.setOut b).bg = s.bg := rfl
@[simp] theorem State.setOut_code (s : State) (b : Buffer) : (s.setOut b).code = s.code := rfl
@[simp] theorem State.setOut_gly (s : State) (b : Buffer) : (s.setOut b).gly = s.gly := rfl
@[simp] theorem State.setOut_bright (s : State) (b : Buffer) : (s.setOut b).bright = s.bright := rfl
@[simp] theorem State.setOut_time (s : State) (b : Buffer) : (s.setOut b).time = s.time := rfl
@[simp] theorem State.setOut_speed (s : State) (b : Buffer) : (s.setOut b).speed = s.speed := rfl
@[simp] theorem State.setOut_iter (s : State) (b : Buffer) : (s.setOut b).iter = s.iter := rfl
@[simp] theorem State.setOut_fb (s : State) (b : Buffer) : (s.setOut b).fb = s.fb := rfl
@[simp] theorem State.setOut_out (s : State) (b : Buffer) : (s.setOut b).out = b := rfl
@[simp] theorem State.setOut_build (s : State) (b : Buffer) : (s.setOut b).build = s.build := rfl
@[simp] theorem State.setOut_resets (s : State) (b : Buffer) : (s.setOut b).resets = s.resets := rfl
@[simp] theorem State.setOut_pending (s : State) (b : Buffer) : (s.setOut b).pending = s.pending := rfl
@[simp] theorem State.setOut_sinkAnswer (s : State) (b : Buffer) : (s.setOut b).sinkAnswer = s.sinkAnswer := rfl
@[simp] theorem State.setOut_sinkRecord (s : State) (b : Buffer) : (s.setOut b).sinkRecord = s.sinkRecord := rfl
@[simp] theorem State.setOut_lastRead (s : State) (b : Buffer) : (s.setOut b).lastRead = s.lastRead := rfl

@[simp] theorem State.loadOperands_status (s : State) (t : F) (fg bg : Pixel) (ch : Byte) : (s.loadOperands t fg bg ch).status = s.status := rfl
@[simp] theorem State.loadOperands_regT (s : State) (t : F) (fg bg : Pixel) (ch : Byte) : (s.loadOperands t fg bg ch).regT = t := rfl
@[simp] theorem State.loadOperands_regH (s : State) (t : F) (fg bg : Pixel) (ch : Byte) : (s.loadOperands t fg bg ch).regH = s.regH := rfl
@[simp] theorem State.loadOperands_regS (s : State) (t : F) (fg bg : Pixel) (ch : Byte) : (s.loadOperands t fg bg ch).regS = s.regS := rfl
@[simp] theorem State.loadOperands_regV (s : State) (t : F) (fg bg : Pixel) (ch : Byte) : (s.loadOperands t fg bg ch).regV = s.regV := rfl
@[simp] theorem State.loadOperands_color (s : State) (t : F) (fg bg : Pixel) (ch : Byte) : (s.loadOperands t fg bg ch).color = s.color := rfl
@[simp] theorem State.loadOperands_fg (s : State) (t : F) (fg bg : Pixel) (ch : Byte) : (s.loadOperands t fg bg ch).fg = fg := rfl
@[simp] theorem State.loadOperands_bg (s : State) (t : F) (fg bg : Pixel) (ch : Byte) : (s.loadOperands t fg bg ch).bg = bg := rfl
@[simp] theorem State.loadOperands_code (s : State) (t : F) (fg bg : Pixel) (ch : Byte) : (s.loadOperands t fg bg ch).code = ch := rfl
@[simp] theorem State.loadOperands_gly (s : State) (t : F) (fg bg : Pixel) (ch : Byte) : (s.loadOperands t fg bg ch).gly = s.gly := rfl
@[simp] theorem State.loadOperands_bright (s : State) (t : F) (fg bg : Pixel) (ch : Byte) : (s.loadOperands t fg bg ch).bright = s.bright := rfl
@[simp] theorem State.loadOperands_time (s : State) (t : F) (fg bg : Pixel) (ch : Byte) : (s.loadOperands t fg bg ch).time = s.time := rfl
@[simp] theorem State.loadOperands_speed (s : State) (t : F) (fg bg : Pixel) (ch : Byte) : (s.loadOperands t fg bg ch).speed = s.speed := rfl
@[simp] theorem State.loadOperands_iter (s : State) (t : F) (fg bg : Pixel) (ch : Byte) : (s.loadOperands t fg bg ch).iter = s.iter := rfl
@[simp] theorem State.loadOperands_fb (s : State) (t : F) (fg bg : Pixel) (ch : Byte) : (s.loadOperands t fg bg ch).fb = s.fb := rfl
@[simp] theorem State.loadOperands_out (s : State) (t : F) (fg bg : Pixel) (ch : Byte) : (s.loadOperands t fg bg ch).out = s.out := rfl
@[simp] theorem State.loadOperands_build (s : State) (t : F) (fg bg : Pixel) (ch : Byte) : (s.loadOperands t fg bg ch).build = s.build := rfl
@[simp] theorem State.loadOperands_resets (s : State) (t : F) (fg bg : Pixel) (ch : Byte) : (s.loadOperands t fg bg ch).resets = s.resets := rfl
@[simp] theorem State.loadOperands_pending (s : State) (t : F) (fg bg : Pixel) (ch : Byte) : (s.loadOperands t fg bg ch).pending = s.pending := rfl
@[simp] theorem State.loadOperands_sinkAnswer (s : State) (t : F) (fg bg : Pixel) (ch : Byte) : (s.loadOperands t fg bg ch).sinkAnswer = s.sinkAnswer := rfl
@[simp] theorem State.loadOperands_sinkRecord (s : State) (t : F) (fg bg : Pixel) (ch : Byte) : (s.loadOperands t fg bg ch).sinkRecord = s.sinkRecord := rfl
@[simp] theorem State.loadOperands_lastRead (s : State) (t : F) (fg bg : Pixel) (ch : Byte) : (s.loadOperands t fg bg ch).lastRead = s.lastRead := rfl

@[simp] theorem State.advance_status (s : State) (n : Word) (t : F) : (s.advance n t).status = s.status := rfl
@[simp] theorem State.advance_regT (s : State) (n : Word) (t : F) : (s.advance n t).regT = s.regT := rfl
@[simp] theorem State.advance_regH (s : State) (n : Word) (t : F) : (s.advance n t).regH = s.regH := rfl
@[simp] theorem State.advance_regS (s : State) (n : Word) (t : F) : (s.advance n t).regS = s.regS := rfl
@[simp] theorem State.advance_regV (s : State) (n : Word) (t : F) : (s.advance n t).regV = s.regV := rfl
@[simp] theorem State.advance_color (s : State) (n : Word) (t : F) : (s.advance n t).color = s.color := rfl
@[simp] theorem State.advance_fg (s : State) (n : Word) (t : F) : (s.advance n t).fg = s.fg := rfl
@[simp] theorem State.advance_bg (s : State) (n : Word) (t : F) : (s.advance n t).bg = s.bg := rfl
@[simp] theorem State.advance_code (s : State) (n : Word) (t : F) : (s.advance n t).code = s.code := rfl
@[simp] theorem State.advance_gly (s : State) (n : Word) (t : F) : (s.advance n t).gly = s.gly := rfl
@[simp] theorem State.advance_bright (s : State) (n : Word) (t : F) : (s.advance n t).bright = s.bright := rfl
@[simp] theorem State.advance_time (s : State) (n : Word) (t : F) : (s.advance n t).time = t := rfl
@[simp] theorem State.advance_speed (s : State) (n : Word) (t : F) : (s.advance n t).speed = s.speed := rfl
@[simp] theorem State.advance_iter (s : State) (n : Word) (t : F) : (s.advance n t).iter = n := rfl
@[simp] theorem State.advance_fb (s : State) (n : Word) (t : F) : (s.advance n t).fb = s.fb := rfl
@[simp] theorem State.advance_out (s : State) (n : Word) (t : F) : (s.advance n t).out = s.out := rfl
@[simp] theorem State.advance_build (s : State) (n : Word) (t : F) : (s.advance n t).build = s.build := rfl
@[simp] theorem State.advance_resets (s : State) (n : Word) (t : F) : (s.advance n t).resets = s.resets := rfl
@[simp] theorem State.advance_pending (s : State) (n : Word) (t : F) : (s.advance n t).pending = s.pending := rfl
@[simp] theorem State.advance_sinkAnswer (s : State) (n : Word) (t : F) : (s.advance n t).sinkAnswer = s.sinkAnswer := rfl
@[simp] theorem State.advance_sinkRecord (s : State) (n : Word) (t : F) : (s.advance n t).sinkRecord = s.sinkRecord := rfl
@[simp] theorem State.advance_lastRead (s : State) (n : Word) (t : F) : (s.advance n t).lastRead = s.lastRead := rfl

@[simp] theorem State.accept_status (s : State) (f : Frame) : (s.accept f).status = s.status := rfl
@[simp] theorem State.accept_regT (s : State) (f : Frame) : (s.accept f).regT = s.regT := rfl
@[simp] theorem State.accept_regH (s : State) (f : Frame) : (s.accept f).regH = s.regH := rfl
@[simp] theorem State.accept_regS (s : State) (f : Frame) : (s.accept f).regS = s.regS := rfl
@[simp] theorem State.accept_regV (s : State) (f : Frame) : (s.accept f).regV = s.regV := rfl
@[simp] theorem State.accept_color (s : State) (f : Frame) : (s.accept f).color = s.color := rfl
@[simp] theorem State.accept_fg (s : State) (f : Frame) : (s.accept f).fg = s.fg := rfl
@[simp] theorem State.accept_bg (s : State) (f : Frame) : (s.accept f).bg = s.bg := rfl
@[simp] theorem State.accept_code (s : State) (f : Frame) : (s.accept f).code = s.code := rfl
@[simp] theorem State.accept_gly (s : State) (f : Frame) : (s.accept f).gly = s.gly := rfl
@[simp] theorem State.accept_bright (s : State) (f : Frame) : (s.accept f).bright = s.bright := rfl
@[simp] theorem State.accept_time (s : State) (f : Frame) : (s.accept f).time = s.time := rfl
@[simp] theorem State.accept_speed (s : State) (f : Frame) : (s.accept f).speed = s.speed := rfl
@[simp] theorem State.accept_iter (s : State) (f : Frame) : (s.accept f).iter = s.iter := rfl
@[simp] theorem State.accept_fb (s : State) (f : Frame) : (s.accept f).fb = s.fb := rfl
@[simp] theorem State.accept_out (s : State) (f : Frame) : (s.accept f).out = s.out := rfl
@[simp] theorem State.accept_build (s : State) (f : Frame) : (s.accept f).build = s.build := rfl
@[simp] theorem State.accept_resets (s : State) (f : Frame) : (s.accept f).resets = s.resets := rfl
@[simp] theorem State.accept_pending (s : State) (f : Frame) : (s.accept f).pending = s.pending := rfl
@[simp] theorem State.accept_sinkAnswer (s : State) (f : Frame) : (s.accept f).sinkAnswer = s.sinkAnswer := rfl
@[simp] theorem State.accept_sinkRecord (s : State) (f : Frame) : (s.accept f).sinkRecord = s.sinkRecord ++ [f] := rfl
@[simp] theorem State.accept_lastRead (s : State) (f : Frame) : (s.accept f).lastRead = s.lastRead := rfl

@[simp] theorem State.setLastRead_status (s : State) (w : Word) : (s.setLastRead w).status = s.status := rfl
@[simp] theorem State.setLastRead_regT (s : State) (w : Word) : (s.setLastRead w).regT = s.regT := rfl
@[simp] theorem State.setLastRead_regH (s : State) (w : Word) : (s.setLastRead w).regH = s.regH := rfl
@[simp] theorem State.setLastRead_regS (s : State) (w : Word) : (s.setLastRead w).regS = s.regS := rfl
@[simp] theorem State.setLastRead_regV (s : State) (w : Word) : (s.setLastRead w).regV = s.regV := rfl
@[simp] theorem State.setLastRead_color (s : State) (w : Word) : (s.setLastRead w).color = s.color := rfl
@[simp] theorem State.setLastRead_fg (s : State) (w : Word) : (s.setLastRead w).fg = s.fg := rfl
@[simp] theorem State.setLastRead_bg (s : State) (w : Word) : (s.setLastRead w).bg = s.bg := rfl
@[simp] theorem State.setLastRead_code (s : State) (w : Word) : (s.setLastRead w).code = s.code := rfl
@[simp] theorem State.setLastRead_gly (s : State) (w : Word) : (s.setLastRead w).gly = s.gly := rfl
@[simp] theorem State.setLastRead_bright (s : State) (w : Word) : (s.setLastRead w).bright = s.bright := rfl
@[simp] theorem State.setLastRead_time (s : State) (w : Word) : (s.setLastRead w).time = s.time := rfl
@[simp] theorem State.setLastRead_speed (s : State) (w : Word) : (s.setLastRead w).speed = s.speed := rfl
@[simp] theorem State.setLastRead_iter (s : State) (w : Word) : (s.setLastRead w).iter = s.iter := rfl
@[simp] theorem State.setLastRead_fb (s : State) (w : Word) : (s.setLastRead w).fb = s.fb := rfl
@[simp] theorem State.setLastRead_out (s : State) (w : Word) : (s.setLastRead w).out = s.out := rfl
@[simp] theorem State.setLastRead_build (s : State) (w : Word) : (s.setLastRead w).build = s.build := rfl
@[simp] theorem State.setLastRead_resets (s : State) (w : Word) : (s.setLastRead w).resets = s.resets := rfl
@[simp] theorem State.setLastRead_pending (s : State) (w : Word) : (s.setLastRead w).pending = s.pending := rfl
@[simp] theorem State.setLastRead_sinkAnswer (s : State) (w : Word) : (s.setLastRead w).sinkAnswer = s.sinkAnswer := rfl
@[simp] theorem State.setLastRead_sinkRecord (s : State) (w : Word) : (s.setLastRead w).sinkRecord = s.sinkRecord := rfl
@[simp] theorem State.setLastRead_lastRead (s : State) (w : Word) : (s.setLastRead w).lastRead = w := rfl

@[simp] theorem State.issue_status (s : State) (l : List HostEvent) (a : SinkAnswer) : (s.issue l a).status = s.status := rfl
@[simp] theorem State.issue_regT (s : State) (l : List HostEvent) (a : SinkAnswer) : (s.issue l a).regT = s.regT := rfl
@[simp] theorem State.issue_regH (s : State) (l : List HostEvent) (a : SinkAnswer) : (s.issue l a).regH = s.regH := rfl
@[simp] theorem State.issue_regS (s : State) (l : List HostEvent) (a : SinkAnswer) : (s.issue l a).regS = s.regS := rfl
@[simp] theorem State.issue_regV (s : State) (l : List HostEvent) (a : SinkAnswer) : (s.issue l a).regV = s.regV := rfl
@[simp] theorem State.issue_color (s : State) (l : List HostEvent) (a : SinkAnswer) : (s.issue l a).color = s.color := rfl
@[simp] theorem State.issue_fg (s : State) (l : List HostEvent) (a : SinkAnswer) : (s.issue l a).fg = s.fg := rfl
@[simp] theorem State.issue_bg (s : State) (l : List HostEvent) (a : SinkAnswer) : (s.issue l a).bg = s.bg := rfl
@[simp] theorem State.issue_code (s : State) (l : List HostEvent) (a : SinkAnswer) : (s.issue l a).code = s.code := rfl
@[simp] theorem State.issue_gly (s : State) (l : List HostEvent) (a : SinkAnswer) : (s.issue l a).gly = s.gly := rfl
@[simp] theorem State.issue_bright (s : State) (l : List HostEvent) (a : SinkAnswer) : (s.issue l a).bright = s.bright := rfl
@[simp] theorem State.issue_time (s : State) (l : List HostEvent) (a : SinkAnswer) : (s.issue l a).time = s.time := rfl
@[simp] theorem State.issue_speed (s : State) (l : List HostEvent) (a : SinkAnswer) : (s.issue l a).speed = s.speed := rfl
@[simp] theorem State.issue_iter (s : State) (l : List HostEvent) (a : SinkAnswer) : (s.issue l a).iter = s.iter := rfl
@[simp] theorem State.issue_fb (s : State) (l : List HostEvent) (a : SinkAnswer) : (s.issue l a).fb = s.fb := rfl
@[simp] theorem State.issue_out (s : State) (l : List HostEvent) (a : SinkAnswer) : (s.issue l a).out = s.out := rfl
@[simp] theorem State.issue_build (s : State) (l : List HostEvent) (a : SinkAnswer) : (s.issue l a).build = s.build := rfl
@[simp] theorem State.issue_resets (s : State) (l : List HostEvent) (a : SinkAnswer) : (s.issue l a).resets = s.resets := rfl
@[simp] theorem State.issue_pending (s : State) (l : List HostEvent) (a : SinkAnswer) : (s.issue l a).pending = l := rfl
@[simp] theorem State.issue_sinkAnswer (s : State) (l : List HostEvent) (a : SinkAnswer) : (s.issue l a).sinkAnswer = a := rfl
@[simp] theorem State.issue_sinkRecord (s : State) (l : List HostEvent) (a : SinkAnswer) : (s.issue l a).sinkRecord = s.sinkRecord := rfl
@[simp] theorem State.issue_lastRead (s : State) (l : List HostEvent) (a : SinkAnswer) : (s.issue l a).lastRead = s.lastRead := rfl

@[simp] theorem State.applyReset_status (s : State) : s.applyReset.status = 0#4 := rfl
@[simp] theorem State.applyReset_regT (s : State) : s.applyReset.regT = (Config.powerOn (s.resets + 1)).regT := rfl
@[simp] theorem State.applyReset_regH (s : State) : s.applyReset.regH = (Config.powerOn (s.resets + 1)).regH := rfl
@[simp] theorem State.applyReset_regS (s : State) : s.applyReset.regS = (Config.powerOn (s.resets + 1)).regS := rfl
@[simp] theorem State.applyReset_regV (s : State) : s.applyReset.regV = (Config.powerOn (s.resets + 1)).regV := rfl
@[simp] theorem State.applyReset_color (s : State) : s.applyReset.color = (Config.powerOn (s.resets + 1)).color := rfl
@[simp] theorem State.applyReset_fg (s : State) : s.applyReset.fg = (Config.powerOn (s.resets + 1)).fg := rfl
@[simp] theorem State.applyReset_bg (s : State) : s.applyReset.bg = (Config.powerOn (s.resets + 1)).bg := rfl
@[simp] theorem State.applyReset_code (s : State) : s.applyReset.code = (Config.powerOn (s.resets + 1)).code := rfl
@[simp] theorem State.applyReset_gly (s : State) : s.applyReset.gly = (Config.powerOn (s.resets + 1)).gly := rfl
@[simp] theorem State.applyReset_bright (s : State) : s.applyReset.bright = s.build.bright0 := rfl
@[simp] theorem State.applyReset_time (s : State) : s.applyReset.time = f0 := rfl
@[simp] theorem State.applyReset_speed (s : State) : s.applyReset.speed = s.build.speed0 := rfl
@[simp] theorem State.applyReset_iter (s : State) : s.applyReset.iter = 0#32 := rfl
@[simp] theorem State.applyReset_fb (s : State) : s.applyReset.fb = (Config.powerOn (s.resets + 1)).fb := rfl
@[simp] theorem State.applyReset_out (s : State) : s.applyReset.out = (Config.powerOn (s.resets + 1)).out := rfl
@[simp] theorem State.applyReset_build (s : State) : s.applyReset.build = s.build := rfl
@[simp] theorem State.applyReset_resets (s : State) : s.applyReset.resets = s.resets + 1 := rfl
@[simp] theorem State.applyReset_pending (s : State) : s.applyReset.pending = s.pending := rfl
@[simp] theorem State.applyReset_sinkAnswer (s : State) : s.applyReset.sinkAnswer = s.sinkAnswer := rfl
@[simp] theorem State.applyReset_sinkRecord (s : State) : s.applyReset.sinkRecord = s.sinkRecord := rfl
@[simp] theorem State.applyReset_lastRead (s : State) : s.applyReset.lastRead = s.lastRead := rfl

@[simp] theorem State.afterReset_status (b : Build) (n : Nat) : (State.afterReset b n).status = 0#4 := rfl
@[simp] theorem State.afterReset_regT (b : Build) (n : Nat) : (State.afterReset b n).regT = (Config.powerOn n).regT := rfl
@[simp] theorem State.afterReset_regH (b : Build) (n : Nat) : (State.afterReset b n).regH = (Config.powerOn n).regH := rfl
@[simp] theorem State.afterReset_regS (b : Build) (n : Nat) : (State.afterReset b n).regS = (Config.powerOn n).regS := rfl
@[simp] theorem State.afterReset_regV (b : Build) (n : Nat) : (State.afterReset b n).regV = (Config.powerOn n).regV := rfl
@[simp] theorem State.afterReset_color (b : Build) (n : Nat) : (State.afterReset b n).color = (Config.powerOn n).color := rfl
@[simp] theorem State.afterReset_fg (b : Build) (n : Nat) : (State.afterReset b n).fg = (Config.powerOn n).fg := rfl
@[simp] theorem State.afterReset_bg (b : Build) (n : Nat) : (State.afterReset b n).bg = (Config.powerOn n).bg := rfl
@[simp] theorem State.afterReset_code (b : Build) (n : Nat) : (State.afterReset b n).code = (Config.powerOn n).code := rfl
@[simp] theorem State.afterReset_gly (b : Build) (n : Nat) : (State.afterReset b n).gly = (Config.powerOn n).gly := rfl
@[simp] theorem State.afterReset_bright (b : Build) (n : Nat) : (State.afterReset b n).bright = b.bright0 := rfl
@[simp] theorem State.afterReset_time (b : Build) (n : Nat) : (State.afterReset b n).time = f0 := rfl
@[simp] theorem State.afterReset_speed (b : Build) (n : Nat) : (State.afterReset b n).speed = b.speed0 := rfl
@[simp] theorem State.afterReset_iter (b : Build) (n : Nat) : (State.afterReset b n).iter = 0#32 := rfl
@[simp] theorem State.afterReset_fb (b : Build) (n : Nat) : (State.afterReset b n).fb = (Config.powerOn n).fb := rfl
@[simp] theorem State.afterReset_out (b : Build) (n : Nat) : (State.afterReset b n).out = (Config.powerOn n).out := rfl
@[simp] theorem State.afterReset_build (b : Build) (n : Nat) : (State.afterReset b n).build = b := rfl
@[simp] theorem State.afterReset_resets (b : Build) (n : Nat) : (State.afterReset b n).resets = n := rfl
@[simp] theorem State.afterReset_pending (b : Build) (n : Nat) : (State.afterReset b n).pending = [] := rfl
@[simp] theorem State.afterReset_sinkAnswer (b : Build) (n : Nat) : (State.afterReset b n).sinkAnswer = .ok := rfl
@[simp] theorem State.afterReset_sinkRecord (b : Build) (n : Nat) : (State.afterReset b n).sinkRecord = [] := rfl
@[simp] theorem State.afterReset_lastRead (b : Build) (n : Nat) : (State.afterReset b n).lastRead = 0#32 := rfl

end Sys2Proof.Machine
end

