-- ==== Sys2Proof/Laws/Ops.lean ====
section
/-! SUPPORT. For each shared operation, what it can do: said once, for the provers to cite. -/

namespace Sys2Proof.Machine

/-! ### Flags -/

theorem Cause.code_lt (c : Cause) : c.code < 4 := by cases c <;> decide

theorem Cause.code_inj {c d : Cause} : c.code = d.code ↔ c = d := by cases c <;> cases d <;> decide

/-- Raising an error sets its own flag and keeps the others. -/
theorem flag_raise (s : State) (c d : Cause) : (s.raise c).flag d = (s.flag d || decide (c = d)) := by
  simp only [State.flag, State.raise_status, statusWith]
  generalize s.status = st
  revert st
  cases c <;> cases d <;> decide

theorem statusWith_transmitError (st : BitVec 4) : statusWith st .transmitError = st ||| 1#4 := rfl
theorem statusWith_edom (st : BitVec 4) : statusWith st .edom = st ||| 2#4 := rfl
theorem statusWith_ecmd (st : BitVec 4) : statusWith st .ecmd = st ||| 4#4 := rfl
theorem statusWith_eacc (st : BitVec 4) : statusWith st .eacc = st ||| 8#4 := rfl

/-! ### Buffers -/

@[simp] theorem render_get (fb : Buffer) (g : Glyph) (fg : Pixel) (bg : Option Pixel) (k : Fin 25) :
    (render fb g fg bg)[k] = if glyphBit g k then fg else bg.getD fb[k] := by
  simp [render]

@[simp] theorem scaleBuffer_get (fb : Buffer) (b : Byte) (k : Fin 25) : (scaleBuffer fb b)[k] = scalePx fb[k] b := by
  simp [scaleBuffer]

@[simp] theorem frameOf_get (out : Buffer) (k : Fin 25) :
    (frameOf out)[k] = { r := pxR out[k], g := pxG out[k], b := pxB out[k] } := by
  simp [frameOf]

/-- Two buffers with equal entries are equal. -/
theorem buffer_ext {a b : Buffer} (h : ∀ k : Fin 25, a[k] = b[k]) : a = b := by
  apply Vector.ext
  intro i hi
  exact h ⟨i, hi⟩

/-- A bit of a packed glyph, row by row. -/
theorem packGlyph_getLsbD (g : Glyph) (i : Nat) :
    (packGlyph g).getLsbD i =
      if i < 5 then g[0].getLsbD i else if i - 5 < 5 then g[1].getLsbD (i - 5)
      else if i - 5 - 5 < 5 then g[2].getLsbD (i - 5 - 5)
      else if i - 5 - 5 - 5 < 5 then g[3].getLsbD (i - 5 - 5 - 5) else g[4].getLsbD (i - 5 - 5 - 5 - 5) := by
  have h : (packGlyph g).getLsbD i = (g[4] ++ g[3] ++ g[2] ++ g[1] ++ g[0] : BitVec (5 + 5 + 5 + 5 + 5)).getLsbD i := rfl
  rw [h, BitVec.getLsbD_append, BitVec.getLsbD_append, BitVec.getLsbD_append, BitVec.getLsbD_append]

/-- The packed glyph holds bit `j` of row `r` at `5r + j`. -/
theorem packGlyph_bit (g : Glyph) (r j : Fin 5) : (packGlyph g).getLsbD (5 * r.val + j.val) = g[r].getLsbD j.val := by
  obtain ⟨r, hr⟩ := r
  obtain ⟨j, hj⟩ := j
  rw [packGlyph_getLsbD]
  interval_cases r <;> simp [hj, show ∀ n, ¬ (n + 5 + j < 5) by omega, show 10 + j - 5 = 5 + j by omega,
    show 15 + j - 5 = 10 + j by omega, show 20 + j - 5 = 15 + j by omega]

/-- The bit that paints entry `k`, read from the packed glyph (R163). -/
theorem glyphBit_packed (g : Glyph) (k : Fin 25) :
    glyphBit g k = (packGlyph g).getLsbD (5 * (4 - k.val / 5) + k.val % 5) := by
  have hk := k.isLt
  exact (packGlyph_bit g ⟨4 - k.val / 5, by omega⟩ ⟨k.val % 5, by omega⟩).symm

/-- A bit of a packed pixel, channel by channel. -/
theorem px_getLsbD (r g b : Byte) (i : Nat) :
    (px r g b).getLsbD i =
      if i < 8 then b.getLsbD i else if i - 8 < 8 then g.getLsbD (i - 8) else r.getLsbD (i - 8 - 8) := by
  have h : (px r g b).getLsbD i = (r ++ g ++ b : BitVec (8 + 8 + 8)).getLsbD i := rfl
  rw [h, BitVec.getLsbD_append, BitVec.getLsbD_append]

@[simp] theorem pxR_px (r g b : Byte) : pxR (px r g b) = r := by
  apply BitVec.eq_of_getLsbD_eq
  intro i hi
  rw [pxR, BitVec.getLsbD_extractLsb', px_getLsbD, if_neg (by omega), if_neg (by omega),
    show 16 + i - 8 - 8 = i by omega]
  simp [hi]

@[simp] theorem pxG_px (r g b : Byte) : pxG (px r g b) = g := by
  apply BitVec.eq_of_getLsbD_eq
  intro i hi
  rw [pxG, BitVec.getLsbD_extractLsb', px_getLsbD, if_neg (by omega), if_pos (by omega),
    show 8 + i - 8 = i by omega]
  simp [hi]

@[simp] theorem pxB_px (r g b : Byte) : pxB (px r g b) = b := by
  apply BitVec.eq_of_getLsbD_eq
  intro i hi
  rw [pxB, BitVec.getLsbD_extractLsb', px_getLsbD, if_pos (by omega), Nat.zero_add]
  simp [hi]

/-- A pixel is its three channels. -/
theorem px_channels (p : Pixel) : px (pxR p) (pxG p) (pxB p) = p := by
  apply BitVec.eq_of_getLsbD_eq
  intro i hi
  rw [px_getLsbD]
  simp only [pxR, pxG, pxB, BitVec.getLsbD_extractLsb']
  by_cases h1 : i < 8
  · simp [h1]
  · by_cases h2 : i - 8 < 8
    · simp [h1, h2, show 8 + (i - 8) = i by omega]
    · simp [h1, h2, show i - 8 - 8 < 8 by omega, show 16 + (i - 8 - 8) = i by omega]

/-! ### The sink -/

theorem sendOut_ok {s : State} (h : s.sinkAnswer = .ok) : s.sendOut = s.accept (frameOf s.out) := by
  simp [State.sendOut, h]

theorem sendOut_fail {s : State} (h : s.sinkAnswer = .fail) : s.sendOut = s.raise .transmitError := by
  simp [State.sendOut, h]

/-! ### The index map -/

theorem hostReg_fb (k : Fin 25) : hostReg (32 + k.val) = .fb k := by
  unfold hostReg
  rw [dif_pos (by omega)]
  congr 1
  apply Fin.ext
  simp

theorem hostReg_out (k : Fin 25) : hostReg (64 + k.val) = .out k := by
  unfold hostReg
  rw [dif_neg (by omega), dif_pos (by omega)]
  congr 1
  apply Fin.ext
  simp

/-- An index is one of the first sixteen, an entry of FB, an entry of OUT, or unassigned (R61, R62). -/
theorem hostReg_cases (idx : Nat) :
    idx < 16 ∨ (∃ k : Fin 25, idx = 32 + k.val ∧ hostReg idx = .fb k) ∨
      (∃ k : Fin 25, idx = 64 + k.val ∧ hostReg idx = .out k) ∨
      (((16 ≤ idx ∧ idx ≤ 31) ∨ (57 ≤ idx ∧ idx ≤ 63) ∨ 89 ≤ idx) ∧ hostReg idx = .unassigned) := by
  by_cases h1 : idx < 16
  · exact Or.inl h1
  by_cases h2 : 32 ≤ idx ∧ idx < 57
  · exact Or.inr (Or.inl ⟨⟨idx - 32, by omega⟩, by simp only []; omega, by unfold hostReg; rw [dif_pos h2]⟩)
  by_cases h3 : 64 ≤ idx ∧ idx < 89
  · exact Or.inr (Or.inr (Or.inl ⟨⟨idx - 64, by omega⟩, by simp only []; omega,
      by unfold hostReg; rw [dif_neg h2, dif_pos h3]⟩))
  · refine Or.inr (Or.inr (Or.inr ⟨by omega, ?_⟩))
    unfold hostReg
    rw [dif_neg h2, dif_neg h3]
    split
    all_goals first | rfl | omega

theorem hostReg_unassigned {idx : Nat} (h : (16 ≤ idx ∧ idx ≤ 31) ∨ (57 ≤ idx ∧ idx ≤ 63) ∨ 89 ≤ idx) :
    hostReg idx = .unassigned := by
  rcases hostReg_cases idx with h1 | ⟨k, h1, _⟩ | ⟨k, h1, _⟩ | ⟨_, h1⟩
  · omega
  · have := k.isLt; omega
  · have := k.isLt; omega
  · exact h1

/-- Only index 0 is the command port. -/
theorem hostReg_cmd {idx : Nat} : hostReg idx = .cmd ↔ idx = 0 := by
  constructor
  · intro h
    rcases hostReg_cases idx with h1 | ⟨k, _, h1⟩ | ⟨k, _, h1⟩ | ⟨_, h1⟩
    · interval_cases idx <;> first | rfl | (revert h; decide)
    all_goals (rw [h1] at h; exact absurd h (by simp))
  · rintro rfl
    rfl

/-! ### Commands and transactions -/

/-- Every command has a next state. -/
theorem exec_isNext (i : Instr) (s : State) : ∃ t, exec i s = .next t := by
  cases i <;> exact ⟨_, rfl⟩

/-- A word written to CMD of a running block runs a command or raises ECMD. -/
theorem command_cases (s : State) (w : Word) :
    (∃ i, decode w = .ok i ∧ s.command w = exec i s) ∨
      ((∀ i, decode w ≠ .ok i) ∧ s.command w = .next (s.raise .ecmd)) := by
  unfold State.command
  cases h : decode w with
  | ok i => exact Or.inl ⟨i, rfl, rfl⟩
  | error e => exact Or.inr ⟨by simp, rfl⟩

/-- What a write can do: nothing on a halted block, a command at index 0, a register write elsewhere. -/
theorem regWrite_cases (s : State) (idx : Nat) (v : Word) :
    (s.halt = true ∧ s.regWrite idx v = .next s) ∨
      (s.halt = false ∧ idx = 0 ∧ s.regWrite idx v = s.command v) ∨
      (s.halt = false ∧ idx ≠ 0 ∧ s.regWrite idx v = .next (s.writeReg v (hostReg idx))) := by
  unfold State.regWrite
  cases hh : s.halt
  · right
    by_cases h0 : idx = 0
    · left
      rw [h0]
      exact ⟨rfl, rfl, rfl⟩
    · right
      refine ⟨rfl, h0, ?_⟩
      have hne : hostReg idx ≠ .cmd := fun h => h0 (hostReg_cmd.1 h)
      simp only [Bool.false_eq_true, if_false]
  · exact Or.inl ⟨rfl, by simp⟩

/-- A read returns its word, and sets EACC only on a running block whose index may not be read. -/
theorem regRead_cases (s : State) (idx : Nat) :
    ((s.halt || (hostReg idx).readable) = true ∧ s.regRead idx = s.setLastRead (s.readWord (hostReg idx))) ∨
      ((s.halt || (hostReg idx).readable) = false ∧
        s.regRead idx = (s.setLastRead (s.readWord (hostReg idx))).raise .eacc) := by
  unfold State.regRead
  cases h : (s.halt || (hostReg idx).readable)
  · exact Or.inr ⟨rfl, by simp⟩
  · exact Or.inl ⟨rfl, by simp⟩

/-- The halt does not depend on the queue or the sink's answer. -/
@[simp] theorem halt_issue (s : State) (l : List HostEvent) (a : SinkAnswer) : (s.issue l a).halt = s.halt := rfl

theorem step_nil {s : State} (h : s.pending = []) : step s = .next s := by
  unfold step
  rw [h]

/-- A step with an action pending performs it. -/
theorem step_cons {s : State} {e : HostEvent} {rest : List HostEvent} (h : s.pending = e :: rest) :
    step s = (s.issue rest e.answer).perform e.action := by
  unfold step
  rw [h]

end Sys2Proof.Machine
end

