-- ==== Sys2Proof/Laws/Commands.lean ====
section
/-! SUPPORT. What each command leaves unchanged, field by field, and what it writes: the frames of the shared
operations `paint` and `tickFrame`, and one frame for every command. -/

namespace Sys2Proof.Machine

/-! ### Painting (R164, R165) -/

@[simp] theorem State.paint_status (s : State) (g : Glyph) (fg : Pixel) (bg : Option Pixel) :
    (s.paint g fg bg).status = s.status := rfl
@[simp] theorem State.paint_regT (s : State) (g : Glyph) (fg : Pixel) (bg : Option Pixel) :
    (s.paint g fg bg).regT = s.regT := rfl
@[simp] theorem State.paint_regH (s : State) (g : Glyph) (fg : Pixel) (bg : Option Pixel) :
    (s.paint g fg bg).regH = s.regH := rfl
@[simp] theorem State.paint_regS (s : State) (g : Glyph) (fg : Pixel) (bg : Option Pixel) :
    (s.paint g fg bg).regS = s.regS := rfl
@[simp] theorem State.paint_regV (s : State) (g : Glyph) (fg : Pixel) (bg : Option Pixel) :
    (s.paint g fg bg).regV = s.regV := rfl
@[simp] theorem State.paint_color (s : State) (g : Glyph) (fg : Pixel) (bg : Option Pixel) :
    (s.paint g fg bg).color = s.color := rfl
@[simp] theorem State.paint_fg (s : State) (g : Glyph) (fg : Pixel) (bg : Option Pixel) :
    (s.paint g fg bg).fg = s.fg := rfl
@[simp] theorem State.paint_bg (s : State) (g : Glyph) (fg : Pixel) (bg : Option Pixel) :
    (s.paint g fg bg).bg = s.bg := rfl
@[simp] theorem State.paint_code (s : State) (g : Glyph) (fg : Pixel) (bg : Option Pixel) :
    (s.paint g fg bg).code = s.code := rfl
@[simp] theorem State.paint_gly (s : State) (g : Glyph) (fg : Pixel) (bg : Option Pixel) :
    (s.paint g fg bg).gly = packGlyph g := rfl
@[simp] theorem State.paint_bright (s : State) (g : Glyph) (fg : Pixel) (bg : Option Pixel) :
    (s.paint g fg bg).bright = s.bright := rfl
@[simp] theorem State.paint_time (s : State) (g : Glyph) (fg : Pixel) (bg : Option Pixel) :
    (s.paint g fg bg).time = s.time := rfl
@[simp] theorem State.paint_speed (s : State) (g : Glyph) (fg : Pixel) (bg : Option Pixel) :
    (s.paint g fg bg).speed = s.speed := rfl
@[simp] theorem State.paint_iter (s : State) (g : Glyph) (fg : Pixel) (bg : Option Pixel) :
    (s.paint g fg bg).iter = s.iter := rfl
@[simp] theorem State.paint_fb (s : State) (g : Glyph) (fg : Pixel) (bg : Option Pixel) :
    (s.paint g fg bg).fb = render s.fb g fg bg := rfl
@[simp] theorem State.paint_out (s : State) (g : Glyph) (fg : Pixel) (bg : Option Pixel) :
    (s.paint g fg bg).out = s.out := rfl
@[simp] theorem State.paint_build (s : State) (g : Glyph) (fg : Pixel) (bg : Option Pixel) :
    (s.paint g fg bg).build = s.build := rfl
@[simp] theorem State.paint_resets (s : State) (g : Glyph) (fg : Pixel) (bg : Option Pixel) :
    (s.paint g fg bg).resets = s.resets := rfl
@[simp] theorem State.paint_pending (s : State) (g : Glyph) (fg : Pixel) (bg : Option Pixel) :
    (s.paint g fg bg).pending = s.pending := rfl
@[simp] theorem State.paint_sinkAnswer (s : State) (g : Glyph) (fg : Pixel) (bg : Option Pixel) :
    (s.paint g fg bg).sinkAnswer = s.sinkAnswer := rfl
@[simp] theorem State.paint_sinkRecord (s : State) (g : Glyph) (fg : Pixel) (bg : Option Pixel) :
    (s.paint g fg bg).sinkRecord = s.sinkRecord := rfl
@[simp] theorem State.paint_lastRead (s : State) (g : Glyph) (fg : Pixel) (bg : Option Pixel) :
    (s.paint g fg bg).lastRead = s.lastRead := rfl

/-! ### Lines 1 to 3 of TICK (R216) -/

@[simp] theorem State.tickFrame_status (s : State) : s.tickFrame.status = s.status := rfl
@[simp] theorem State.tickFrame_regH (s : State) : s.tickFrame.regH = s.regH := rfl
@[simp] theorem State.tickFrame_regS (s : State) : s.tickFrame.regS = s.regS := rfl
@[simp] theorem State.tickFrame_regV (s : State) : s.tickFrame.regV = s.regV := rfl
@[simp] theorem State.tickFrame_bright (s : State) : s.tickFrame.bright = s.bright := rfl
@[simp] theorem State.tickFrame_time (s : State) : s.tickFrame.time = s.time := rfl
@[simp] theorem State.tickFrame_speed (s : State) : s.tickFrame.speed = s.speed := rfl
@[simp] theorem State.tickFrame_iter (s : State) : s.tickFrame.iter = s.iter := rfl
@[simp] theorem State.tickFrame_build (s : State) : s.tickFrame.build = s.build := rfl
@[simp] theorem State.tickFrame_resets (s : State) : s.tickFrame.resets = s.resets := rfl
@[simp] theorem State.tickFrame_pending (s : State) : s.tickFrame.pending = s.pending := rfl
@[simp] theorem State.tickFrame_sinkAnswer (s : State) : s.tickFrame.sinkAnswer = s.sinkAnswer := rfl
@[simp] theorem State.tickFrame_sinkRecord (s : State) : s.tickFrame.sinkRecord = s.sinkRecord := rfl
@[simp] theorem State.tickFrame_lastRead (s : State) : s.tickFrame.lastRead = s.lastRead := rfl

@[simp] theorem State.tickFrame_regT (s : State) : s.tickFrame.regT = s.time := rfl
@[simp] theorem State.tickFrame_color (s : State) : s.tickFrame.color = hueColor s.build s.time := rfl
@[simp] theorem State.tickFrame_fg (s : State) : s.tickFrame.fg = hueColor s.build s.time := rfl
@[simp] theorem State.tickFrame_bg (s : State) : s.tickFrame.bg = 0#24 := rfl
@[simp] theorem State.tickFrame_code (s : State) :
    s.tickFrame.code = messageByte s.build.message (charIndex s.build.message s.iter) := rfl
@[simp] theorem State.tickFrame_gly (s : State) :
    s.tickFrame.gly = packGlyph (fontGlyph s.build.font s.tickFrame.code) := rfl
@[simp] theorem State.tickFrame_fb (s : State) :
    s.tickFrame.fb = render s.fb (fontGlyph s.build.font s.tickFrame.code) (hueColor s.build s.time) (some 0#24) := rfl
@[simp] theorem State.tickFrame_out (s : State) : s.tickFrame.out = scaleBuffer s.tickFrame.fb s.bright := rfl

/-- Lines 4 to 7 of R216 when the sink accepts the frame. -/
theorem tickFinish_ok {s : State} (h : s.sinkAnswer = .ok) :
    s.tickFinish = (s.accept (frameOf s.out)).advance (s.iter + 1#32) (nextTime s.time s.speed) := by
  simp [State.tickFinish, State.sendOut, h]

/-- Line 4 of R216 when the sink refuses the frame: the tick ends there. -/
theorem tickFinish_fail {s : State} (h : s.sinkAnswer = .fail) : s.tickFinish = s.raise .transmitError := by
  simp [State.tickFinish, State.sendOut, h]

/-! ### Every command -/

/-- What no command changes: the operand registers only the host writes, the build, and the host's own inputs. -/
structure CommandFrame (s t : State) : Prop where
  regH : t.regH = s.regH
  regS : t.regS = s.regS
  regV : t.regV = s.regV
  bright : t.bright = s.bright
  speed : t.speed = s.speed
  build : t.build = s.build
  resets : t.resets = s.resets
  pending : t.pending = s.pending
  sinkAnswer : t.sinkAnswer = s.sinkAnswer
  lastRead : t.lastRead = s.lastRead

theorem exec_frame {i : Instr} {s t : State} (h : exec i s = .next t) : CommandFrame s t := by
  cases i
  case hue =>
    simp only [exec, execHue, Host.Outcome.next.injEq] at h
    subst h
    split <;> constructor <;> simp
  case hsv =>
    simp only [exec, execHsv, Host.Outcome.next.injEq] at h
    subst h
    split <;> constructor <;> simp
  case emit =>
    simp only [exec, execEmit, Host.Outcome.next.injEq] at h
    subst h
    unfold State.sendOut
    split <;> constructor <;> simp
  case tick =>
    simp only [exec, execTick, Host.Outcome.next.injEq] at h
    subst h
    split
    · cases ha : s.sinkAnswer
      · rw [tickFinish_ok (s := s.tickFrame) ha]
        constructor <;> simp
      · rw [tickFinish_fail (s := s.tickFrame) ha]
        constructor <;> simp
    · constructor <;> simp
  all_goals
    simp only [exec, execGlyph, execRendf, execRendo, execScale, Host.Outcome.next.injEq] at h
    subst h
    constructor <;> simp

/-- RENDF does not read FB: with a background the rendering is the same on any buffer (R166 (a)). -/
theorem render_some (fb fb' : Buffer) (g : Glyph) (fg p : Pixel) :
    render fb g fg (some p) = render fb' g fg (some p) := rfl

end Sys2Proof.Machine
end

