-- ==== Sys2Proof/Laws/Float.lean ====
section
/-! SUPPORT. The laws of binary32 rounding: a magnitude is a strictly increasing function of bits 30 to 0, rounding
never passes a representable number, keeps one that is representable, and errs by at most half a unit. -/

namespace Sys2Proof.Machine

/-! ### Patterns and magnitudes -/

/-- The magnitude of a pattern of bits 30 to 0. -/
def magOf (n : Nat) : Nat := if n / 2 ^ 23 = 0 then n else (2 ^ 23 + n % 2 ^ 23) * 2 ^ (n / 2 ^ 23 - 1)

/-- Bits 30 to 0. -/
def magBits (x : F) : Nat := x.toNat % 2 ^ 31

theorem magBits_lt (x : F) : magBits x < 2 ^ 31 := Nat.mod_lt _ (by norm_num)

theorem fExp_eq (x : F) : fExp x = magBits x / 2 ^ 23 := by
  simp only [fExp, magBits, BitVec.extractLsb'_toNat, Nat.shiftRight_eq_div_pow]
  omega

theorem fFrac_eq (x : F) : fFrac x = magBits x % 2 ^ 23 := by
  simp only [fFrac, magBits, BitVec.extractLsb'_toNat, Nat.shiftRight_eq_div_pow]
  omega

theorem fMag_eq (x : F) : fMag x = magOf (magBits x) := by
  unfold fMag magOf
  rw [fExp_eq, fFrac_eq]
  split
  · omega
  · rfl

theorem isFinite_iff (x : F) : isFinite x = true ↔ magBits x < 0x7F800000 := by
  have := magBits_lt x
  simp only [isFinite, bne_iff_ne, fExp_eq]
  omega

theorem isNaN_iff (x : F) : isNaN x = true ↔ 0x7F800000 < magBits x := by
  have := magBits_lt x
  simp only [isNaN, Bool.and_eq_true, beq_iff_eq, bne_iff_ne, fExp_eq, fFrac_eq]
  omega

theorem isInf_iff (x : F) : isInf x = true ↔ magBits x = 0x7F800000 := by
  have := magBits_lt x
  simp only [isInf, Bool.and_eq_true, beq_iff_eq, fExp_eq, fFrac_eq]
  omega

/-- A significand `m` at shift `k` is encoded as `k · 2^23 + m`. -/
theorem magOf_encode {k m : Nat} (h : (k = 0 ∧ m ≤ 2 ^ 24) ∨ (2 ^ 23 ≤ m ∧ m ≤ 2 ^ 24)) :
    magOf (k * 2 ^ 23 + m) = m * 2 ^ k := by
  unfold magOf
  rcases Nat.lt_or_ge m (2 ^ 23) with hm | hm
  · have hk : k = 0 := by omega
    subst hk
    rw [if_pos (by omega)]
    simp
  · rcases Nat.lt_or_ge m (2 ^ 24) with hm2 | hm2
    · have h1 : (k * 2 ^ 23 + m) / 2 ^ 23 = k + 1 := by omega
      have h2 : (k * 2 ^ 23 + m) % 2 ^ 23 = m - 2 ^ 23 := by omega
      rw [h1, h2, if_neg (by omega), show 2 ^ 23 + (m - 2 ^ 23) = m by omega, show k + 1 - 1 = k from rfl]
    · have hm3 : m = 2 ^ 24 := by omega
      have h1 : (k * 2 ^ 23 + m) / 2 ^ 23 = k + 2 := by omega
      have h2 : (k * 2 ^ 23 + m) % 2 ^ 23 = 0 := by omega
      rw [h1, h2, if_neg (by omega), hm3, show k + 2 - 1 = k + 1 from rfl, pow_succ 2 k]
      have hp : 0 < 2 ^ k := by positivity
      generalize 2 ^ k = p at *
      omega

theorem magOf_succ (n : Nat) : magOf n < magOf (n + 1) := by
  unfold magOf
  by_cases h0 : n / 2 ^ 23 = 0
  · rw [if_pos h0]
    by_cases h1 : (n + 1) / 2 ^ 23 = 0
    · rw [if_pos h1]; omega
    · rw [if_neg h1]
      have : (n + 1) / 2 ^ 23 = 1 := by omega
      rw [this]
      have : (n + 1) % 2 ^ 23 = 0 := by omega
      rw [this]; omega
  · have h1 : (n + 1) / 2 ^ 23 ≠ 0 := by omega
    rw [if_neg h0, if_neg h1]
    by_cases h2 : (n + 1) % 2 ^ 23 = 0
    · have : (n + 1) / 2 ^ 23 - 1 = (n / 2 ^ 23 - 1) + 1 := by omega
      rw [h2, this, pow_succ 2 (n / 2 ^ 23 - 1)]
      have : n % 2 ^ 23 = 2 ^ 23 - 1 := by omega
      rw [this]
      have hp : 0 < 2 ^ (n / 2 ^ 23 - 1) := by positivity
      generalize 2 ^ (n / 2 ^ 23 - 1) = p at *
      omega
    · have h3 : (n + 1) / 2 ^ 23 = n / 2 ^ 23 := by omega
      have h4 : (n + 1) % 2 ^ 23 = n % 2 ^ 23 + 1 := by omega
      rw [h3, h4]
      exact Nat.mul_lt_mul_of_pos_right (by omega) (by positivity)

theorem magOf_strictMono : StrictMono magOf := strictMono_nat_of_lt_succ magOf_succ

theorem magOf_le_iff {m n : Nat} : magOf m ≤ magOf n ↔ m ≤ n := magOf_strictMono.le_iff_le

/-- A representable magnitude of at least `2^(k+23)` is a multiple of `2^k`. -/
theorem dvd_magOf {k n : Nat} (h : 2 ^ (k + 23) ≤ magOf n) : 2 ^ k ∣ magOf n := by
  unfold magOf at *
  split at h
  · rename_i h0
    rw [if_pos h0]
    rcases k with _ | k
    · simp
    · exfalso
      have : 2 ^ 24 ≤ 2 ^ (k + 1 + 23) := Nat.pow_le_pow_right (by norm_num) (by omega)
      omega
  · rename_i h0
    rw [if_neg h0]
    apply Dvd.dvd.mul_left
    apply Nat.pow_dvd_pow
    by_contra hlt
    have h1 : (2 ^ 23 + n % 2 ^ 23) * 2 ^ (n / 2 ^ 23 - 1) < 2 ^ 24 * 2 ^ (n / 2 ^ 23 - 1) :=
      Nat.mul_lt_mul_of_pos_right (by omega) (by positivity)
    have h2 : 2 ^ 24 * 2 ^ (n / 2 ^ 23 - 1) ≤ 2 ^ (k + 23) := by
      rw [← pow_add]; exact Nat.pow_le_pow_right (by norm_num) (by omega)
    omega

/-! ### Rounding to an integer -/

theorem rneDiv_le {num den j : Nat} (hd : 0 < den) (h : num ≤ j * den) : rneDiv num den ≤ j := by
  have hdm := Nat.div_add_mod num den
  have hlt := Nat.mod_lt num hd
  have hq : num / den ≤ j := Nat.div_le_of_le_mul (by rw [mul_comm]; exact h)
  unfold rneDiv
  split
  · rename_i hc
    rcases Nat.lt_or_ge (num / den) j with hl | hg
    · omega
    · have he : num / den = j := by omega
      rw [he] at hdm
      have : num % den = 0 := by
        have : den * j + num % den ≤ j * den := by rw [hdm]; exact h
        rw [mul_comm] at this; omega
      omega
  · exact hq

theorem le_rneDiv {num den j : Nat} (hd : 0 < den) (h : j * den ≤ num) : j ≤ rneDiv num den := by
  have hq : j ≤ num / den := (Nat.le_div_iff_mul_le hd).2 h
  unfold rneDiv
  split <;> omega

theorem rneDiv_mul {den j : Nat} (hd : 0 < den) : rneDiv (j * den) den = j :=
  le_antisymm (rneDiv_le hd le_rfl) (le_rneDiv hd le_rfl)

/-- The rounded quotient is within half a unit: twice the error is at most the divisor. -/
theorem rneDiv_error {num den : Nat} (hd : 0 < den) :
    2 * (rneDiv num den * den) ≤ 2 * num + den ∧ 2 * num ≤ 2 * (rneDiv num den * den) + den := by
  have hdm := Nat.div_add_mod num den
  have hlt := Nat.mod_lt num hd
  rw [mul_comm] at hdm
  unfold rneDiv
  split
  · rename_i hc
    rw [Nat.add_mul, one_mul]
    omega
  · rename_i hc
    omega

/-- What the shift says about the size of the quotient. -/
theorem roundShift_spec {num den : Nat} :
    num / den < 2 ^ (roundShift num den + 24) ∧
      (roundShift num den = 0 ∨ 2 ^ (roundShift num den + 23) ≤ num / den) := by
  unfold roundShift
  rcases Nat.eq_zero_or_pos (num / den) with h0 | h0
  · rw [h0]; simp
  · have h1 := Nat.log2_self_le (n := num / den) (by omega)
    have h2 := Nat.lt_log2_self (n := num / den)
    generalize (num / den).log2 = l at *
    constructor
    · exact lt_of_lt_of_le h2 (Nat.pow_le_pow_right (by norm_num) (by omega))
    · rcases Nat.lt_or_ge 23 l with hl | hl
      · right
        rwa [show l - 23 + 23 = l by omega]
      · left; omega

/-- The significand the rounding picks is one `magOf_encode` takes. -/
theorem rneDiv_shift_bounds {num den : Nat} (hd : 0 < den) :
    let k := roundShift num den
    let m := rneDiv num (den * 2 ^ k)
    (k = 0 ∧ m ≤ 2 ^ 24) ∨ (2 ^ 23 ≤ m ∧ m ≤ 2 ^ 24) := by
  intro k m
  obtain ⟨h1, h2⟩ := roundShift_spec (num := num) (den := den)
  have hpos : 0 < den * 2 ^ k := by positivity
  have hle : m ≤ 2 ^ 24 := by
    apply rneDiv_le hpos
    have : num < 2 ^ (k + 24) * den := (Nat.div_lt_iff_lt_mul hd).1 h1
    calc num ≤ 2 ^ (k + 24) * den := this.le
      _ = 2 ^ 24 * (den * 2 ^ k) := by rw [pow_add]; ring
  rcases h2 with h2 | h2
  · exact Or.inl ⟨h2, hle⟩
  · right
    refine ⟨?_, hle⟩
    apply le_rneDiv hpos
    have := (Nat.le_div_iff_mul_le hd).1 h2
    calc 2 ^ 23 * (den * 2 ^ k) = 2 ^ (k + 23) * den := by rw [pow_add]; ring
      _ ≤ num := this

/-- The magnitude of the rounded pattern: the significand at its shift. -/
theorem magOf_roundBits {num den : Nat} (hd : 0 < den) :
    magOf (roundBits num den) = rneDiv num (den * 2 ^ roundShift num den) * 2 ^ roundShift num den :=
  magOf_encode (rneDiv_shift_bounds hd)

/-- Rounding never passes a representable magnitude from below. -/
theorem roundBits_le {num den n : Nat} (hd : 0 < den) (h : num ≤ magOf n * den) : roundBits num den ≤ n := by
  rw [← magOf_le_iff, magOf_roundBits hd]
  set k := roundShift num den with hk
  obtain ⟨h1, h2⟩ := roundShift_spec (num := num) (den := den)
  rw [← hk] at h1 h2
  have hpos : 0 < den * 2 ^ k := by positivity
  rcases Nat.lt_or_ge (magOf n) (2 ^ (k + 24)) with hlt | hge
  · have hdvd : 2 ^ k ∣ magOf n := by
      rcases h2 with h2 | h2
      · rw [h2]; simp
      · apply dvd_magOf
        exact h2.trans (Nat.div_le_of_le_mul (by rw [mul_comm]; exact h))
    obtain ⟨j, hj⟩ := hdvd
    rw [hj, mul_comm]
    apply Nat.mul_le_mul_left
    apply rneDiv_le hpos
    rw [hj] at h
    calc num ≤ 2 ^ k * j * den := h
      _ = j * (den * 2 ^ k) := by ring
  · refine le_trans ?_ hge
    rw [show (2:Nat) ^ (k + 24) = 2 ^ 24 * 2 ^ k by rw [pow_add]; ring]
    apply Nat.mul_le_mul_right
    have := rneDiv_shift_bounds (num := num) hd
    simp only [← hk] at this
    omega

/-- Rounding never passes a representable magnitude from above. -/
theorem le_roundBits {num den n : Nat} (hd : 0 < den) (h : magOf n * den ≤ num) : n ≤ roundBits num den := by
  rw [← magOf_le_iff, magOf_roundBits hd]
  set k := roundShift num den with hk
  obtain ⟨h1, h2⟩ := roundShift_spec (num := num) (den := den)
  rw [← hk] at h1 h2
  have hpos : 0 < den * 2 ^ k := by positivity
  have key : k = 0 ∨ 2 ^ (k + 23) ≤ magOf n → magOf n ≤ rneDiv num (den * 2 ^ k) * 2 ^ k := by
    intro hc
    have hdvd : 2 ^ k ∣ magOf n := by
      rcases hc with hc | hc
      · rw [hc]; simp
      · exact dvd_magOf hc
    obtain ⟨j, hj⟩ := hdvd
    rw [hj, mul_comm]
    apply Nat.mul_le_mul_right
    apply le_rneDiv hpos
    rw [hj] at h
    calc j * (den * 2 ^ k) = 2 ^ k * j * den := by ring
      _ ≤ num := h
  rcases h2 with h2 | h2
  · exact key (Or.inl h2)
  · rcases Nat.lt_or_ge (magOf n) (2 ^ (k + 23)) with hlt | hge
    · refine le_trans hlt.le ?_
      rw [show (2:Nat) ^ (k + 23) = 2 ^ 23 * 2 ^ k by rw [pow_add]; ring]
      apply Nat.mul_le_mul_right
      have := rneDiv_shift_bounds (num := num) hd
      simp only [← hk] at this
      rcases this with ⟨h0, _⟩ | h3
      · apply le_rneDiv hpos
        have := (Nat.le_div_iff_mul_le hd).1 h2
        calc 2 ^ 23 * (den * 2 ^ k) = 2 ^ (k + 23) * den := by rw [pow_add]; ring
          _ ≤ num := this
      · exact h3.1
    · exact key (Or.inr hge)

/-- A representable magnitude rounds to itself. -/
theorem roundBits_exact {den n : Nat} (hd : 0 < den) : roundBits (magOf n * den) den = n :=
  le_antisymm (roundBits_le hd le_rfl) (le_roundBits hd le_rfl)

/-! ### The rounded value as a pattern -/

theorem roundMag_toNat (neg : Bool) (num den : Nat) :
    (roundMag neg num den).toNat = (if neg then 2 ^ 31 else 0) + min (roundBits num den) 0x7F800000 := by
  unfold roundMag
  rw [BitVec.toNat_ofNat, Nat.mod_eq_of_lt]
  have : min (roundBits num den) 0x7F800000 ≤ 0x7F800000 := min_le_right _ _
  split <;> omega

theorem magBits_roundMag (neg : Bool) (num den : Nat) :
    magBits (roundMag neg num den) = min (roundBits num den) 0x7F800000 := by
  have : min (roundBits num den) 0x7F800000 ≤ 0x7F800000 := min_le_right _ _
  unfold magBits
  rw [roundMag_toNat]
  split <;> omega

theorem fSign_eq (x : F) : fSign x = decide (2 ^ 31 ≤ x.toNat) := by
  have : x.toNat < 2 ^ 32 := x.isLt
  simp only [fSign, BitVec.getLsbD, Nat.testBit_eq_decide_div_mod_eq]
  congr 1
  apply propext
  omega

theorem fSign_roundMag (neg : Bool) (num den : Nat) : fSign (roundMag neg num den) = neg := by
  have : min (roundBits num den) 0x7F800000 ≤ 0x7F800000 := min_le_right _ _
  rw [fSign_eq, roundMag_toNat]
  cases neg <;> simp

/-- A pattern is its sign and its magnitude bits. -/
theorem F_ext {x y : F} (hs : fSign x = fSign y) (hm : magBits x = magBits y) : x = y := by
  have hx : x.toNat < 2 ^ 32 := x.isLt
  have hy : y.toNat < 2 ^ 32 := y.isLt
  apply BitVec.eq_of_toNat_eq
  rw [fSign_eq, fSign_eq, decide_eq_decide] at hs
  unfold magBits at hm
  omega

/-- A finite number is what its own magnitude rounds to. -/
theorem roundMag_fMag {x : F} (h : isFinite x = true) {den : Nat} (hd : 0 < den) :
    roundMag (fSign x) (fMag x * den) den = x := by
  apply F_ext (fSign_roundMag _ _ _)
  rw [magBits_roundMag, fMag_eq, roundBits_exact hd]
  have := (isFinite_iff x).1 h
  omega

/-- A bound on the exact value bounds the rounded one: `y` is any number that is not a NaN. -/
theorem magBits_roundMag_le {neg : Bool} {num den : Nat} {y : F} (hd : 0 < den) (h : num ≤ fMag y * den) :
    magBits (roundMag neg num den) ≤ magBits y := by
  rw [magBits_roundMag]
  rw [fMag_eq] at h
  exact (min_le_left _ _).trans (roundBits_le hd h)

theorem fMag_le_fMag {x y : F} : fMag x ≤ fMag y ↔ magBits x ≤ magBits y := by
  rw [fMag_eq, fMag_eq, magOf_le_iff]

theorem fMag_roundMag_le {neg : Bool} {num den : Nat} {y : F} (hd : 0 < den) (h : num ≤ fMag y * den) :
    fMag (roundMag neg num den) ≤ fMag y := fMag_le_fMag.2 (magBits_roundMag_le hd h)

theorem le_fMag_roundMag {neg : Bool} {num den : Nat} {y : F} (hd : 0 < den) (hy : isNaN y = false)
    (h : fMag y * den ≤ num) : fMag y ≤ fMag (roundMag neg num den) := by
  rw [fMag_le_fMag, magBits_roundMag]
  rw [fMag_eq] at h
  have h1 := le_roundBits hd h
  have h2 : ¬ 0x7F800000 < magBits y := by rw [← isNaN_iff, hy]; simp
  omega

theorem isFinite_roundMag_of_le {neg : Bool} {num den : Nat} {y : F} (hd : 0 < den) (hy : isFinite y = true)
    (h : num ≤ fMag y * den) : isFinite (roundMag neg num den) = true := by
  rw [isFinite_iff] at *
  exact lt_of_le_of_lt (magBits_roundMag_le hd h) hy

theorem roundMag_zero (neg : Bool) {den : Nat} (hd : 0 < den) :
    roundMag neg 0 den = if neg then 0x80000000#32 else 0#32 := by
  have h0 : roundBits 0 den = 0 := by
    have := roundBits_exact (n := 0) hd
    simpa [magOf] using this
  unfold roundMag
  rw [h0]
  cases neg <;> rfl

/-! ### Values and domains -/

theorem magBits_fneg (x : F) : magBits (fneg x) = magBits x := by
  have h : (fneg x).toNat = x.toNat ^^^ 2 ^ 31 := by simp [fneg]
  unfold magBits
  rw [h, ← Nat.and_two_pow_sub_one_eq_mod, ← Nat.and_two_pow_sub_one_eq_mod, Nat.and_xor_distrib_right]
  simp

theorem fSign_fneg (x : F) : fSign (fneg x) = !fSign x := by
  simp [fSign, fneg]

theorem fVal_fneg (x : F) : fVal (fneg x) = -fVal x := by
  unfold fVal
  rw [fSign_fneg, fMag_eq, magBits_fneg, ← fMag_eq]
  cases fSign x <;> simp

theorem isNaN_of_finite {x : F} (h : isFinite x = true) : isNaN x = false := by
  rw [isFinite_iff] at h
  rw [Bool.eq_false_iff, Ne, isNaN_iff]
  omega

theorem isInf_of_finite {x : F} (h : isFinite x = true) : isInf x = false := by
  rw [isFinite_iff] at h
  rw [Bool.eq_false_iff, Ne, isInf_iff]
  omega

theorem fle_iff {a b : F} (ha : isNaN a = false) (hb : isNaN b = false) : fle a b = true ↔ fVal a ≤ fVal b := by
  simp [fle, ha, hb]

theorem flt_iff {a b : F} (ha : isNaN a = false) (hb : isNaN b = false) : flt a b = true ↔ fVal a < fVal b := by
  simp [flt, ha, hb]

theorem fgt_iff {a b : F} (ha : isNaN a = false) (hb : isNaN b = false) : fgt a b = true ↔ fVal b < fVal a := by
  simp [fgt, ha, hb]

theorem natAbs_fVal (x : F) : (fVal x).natAbs = fMag x := by
  unfold fVal
  split <;> simp

/-- A sum whose exact value is not zero is one rounding of it. -/
theorem fadd_eq {a b : F} (ha : isFinite a = true) (hb : isFinite b = true) :
    fadd a b = roundSum (fSign a && fSign b) (fVal a + fVal b) := by
  simp [fadd, isNaN_of_finite ha, isNaN_of_finite hb, isInf_of_finite ha, isInf_of_finite hb]

theorem isFinite_fneg (x : F) : isFinite (fneg x) = isFinite x := by
  rw [Bool.eq_iff_iff, isFinite_iff, isFinite_iff, magBits_fneg]

theorem fsub_eq {a b : F} (ha : isFinite a = true) (hb : isFinite b = true) :
    fsub a b = roundSum (fSign a && !fSign b) (fVal a - fVal b) := by
  unfold fsub
  rw [if_neg (by simp [isNaN_of_finite ha, isNaN_of_finite hb]), fadd_eq ha (by rw [isFinite_fneg]; exact hb),
    fVal_fneg, fSign_fneg, Int.sub_eq_add_neg]

theorem fmul_eq {a b : F} (ha : isFinite a = true) (hb : isFinite b = true) :
    fmul a b = roundMag (fSign a != fSign b) (fMag a * fMag b) (2 ^ 149) := by
  simp [fmul, isNaN_of_finite ha, isNaN_of_finite hb, isInf_of_finite ha, isInf_of_finite hb]

theorem fdiv_eq {a b : F} (ha : isFinite a = true) (hb : isFinite b = true) (h0 : fMag b ≠ 0) :
    fdiv a b = roundMag (fSign a != fSign b) (fMag a * 2 ^ 149) (fMag b) := by
  simp [fdiv, isNaN_of_finite ha, isNaN_of_finite hb, isInf_of_finite ha, isInf_of_finite hb, h0]

theorem frem2_eq {q : F} (hq : isFinite q = true) : frem2 q = roundMag (fSign q) (fMag q % 2 ^ 150) 1 := by
  simp [frem2, hq]

theorem fVal_roundMag (neg : Bool) (num den : Nat) :
    fVal (roundMag neg num den) =
      if neg then -(fMag (roundMag neg num den) : Int) else (fMag (roundMag neg num den) : Int) := by
  unfold fVal
  rw [fSign_roundMag]

theorem fMag_roundMag_zero (neg : Bool) {den : Nat} (hd : 0 < den) : fMag (roundMag neg 0 den) = 0 := by
  rw [roundMag_zero neg hd]
  cases neg <;> decide

/-- The value of a rounded sum: the rounded magnitude with the sign of the exact sum. -/
theorem fVal_roundSum (nz : Bool) (v : Int) :
    fVal (roundSum nz v) =
      if v < 0 then -(fMag (roundMag true v.natAbs 1) : Int) else (fMag (roundMag false v.natAbs 1) : Int) := by
  unfold roundSum
  split
  · rename_i h
    subst h
    rw [fVal_roundMag, fMag_roundMag_zero _ Nat.one_pos]
    simp [fMag_roundMag_zero]
  · rename_i h
    rcases lt_or_ge v 0 with hv | hv
    · rw [if_pos hv, decide_eq_true hv, fVal_roundMag, if_pos rfl]
    · rw [if_neg (by omega), decide_eq_false (by omega), fVal_roundMag, if_neg (by simp)]

/-- The sign does not change the rounded magnitude. -/
theorem fMag_roundMag_sign (neg : Bool) (num den : Nat) : fMag (roundMag neg num den) = fMag (roundMag false num den) := by
  rw [fMag_eq, fMag_eq, magBits_roundMag, magBits_roundMag]

/-- An exact sum that is a finite number's value is that number, but for the sign of a zero. -/
theorem roundSum_fVal {x : F} (hx : isFinite x = true) (nz : Bool) (h0 : fMag x ≠ 0) : roundSum nz (fVal x) = x := by
  have hne : fVal x ≠ 0 := by
    intro h
    exact h0 (by rw [← natAbs_fVal, h]; rfl)
  unfold roundSum
  rw [if_neg hne, natAbs_fVal]
  have hs : decide (fVal x < 0) = fSign x := by
    unfold fVal at *
    cases hsx : fSign x <;> simp [hsx] at *
    omega
  rw [hs]
  simpa using roundMag_fMag hx Nat.one_pos

theorem fMag_f1 : fMag f1 = 2 ^ 149 := by decide +kernel

theorem fMag_f360 : fMag f360 = 360 * 2 ^ 149 := by decide +kernel

/-- A value between 0 and `m` is a magnitude of at most `m` whose sign is clear, or a zero. -/
theorem fVal_between {x : F} {m : Nat} :
    (0 ≤ fVal x ∧ fVal x ≤ (m : Int)) ↔ (fMag x ≤ m ∧ (fSign x = true → fMag x = 0)) := by
  unfold fVal
  cases fSign x
  · simp
  · simp only [if_true, true_implies]
    omega

/-- The domain [0, 1] by magnitude and sign. -/
theorem in01_iff {x : F} :
    in01 x = true ↔ isFinite x = true ∧ fMag x ≤ 2 ^ 149 ∧ (fSign x = true → fMag x = 0) := by
  have e0 : fVal f0 = 0 := by decide
  have e1 : fVal f1 = ((2 ^ 149 : Nat) : Int) := by decide +kernel
  simp only [in01, Bool.and_eq_true, and_assoc]
  refine and_congr_right fun hf => ?_
  have hn := isNaN_of_finite hf
  rw [fle_iff (by decide) hn, fle_iff hn (by decide), e0, e1, fVal_between]

/-- The domain [0, 360] by magnitude and sign. -/
theorem inhue_iff {x : F} :
    inhue x = true ↔ isFinite x = true ∧ fMag x ≤ 360 * 2 ^ 149 ∧ (fSign x = true → fMag x = 0) := by
  have e0 : fVal f0 = 0 := by decide
  have e1 : fVal f360 = ((360 * 2 ^ 149 : Nat) : Int) := by decide +kernel
  simp only [inhue, Bool.and_eq_true, and_assoc]
  refine and_congr_right fun hf => ?_
  have hn := isNaN_of_finite hf
  rw [fle_iff (by decide) hn, fle_iff hn (by decide), e0, e1, fVal_between]

/-- A number whose sign is clear or which is a zero has its magnitude as value. -/
theorem fVal_eq_fMag {x : F} (h : fSign x = true → fMag x = 0) : fVal x = fMag x := by
  unfold fVal
  cases hs : fSign x
  · simp
  · simp [h hs]

/-- Only the two zeros have magnitude 0. -/
theorem fMag_eq_zero {x : F} : fMag x = 0 ↔ magBits x = 0 := by
  have h : fMag x = 0 ↔ fMag x ≤ fMag f0 := by
    rw [show fMag f0 = 0 by decide]; omega
  rw [h, fMag_le_fMag, show magBits f0 = 0 by decide]; omega

/-! ### The absolute value (R134) -/

theorem magBits_fabs (x : F) : magBits (fabs x) = magBits x := by
  unfold magBits fabs
  rw [BitVec.toNat_and, show (0x7FFFFFFF#32).toNat = 2 ^ 31 - 1 from rfl, Nat.and_two_pow_sub_one_eq_mod, Nat.mod_mod]

@[simp] theorem fMag_fabs (x : F) : fMag (fabs x) = fMag x := by
  rw [fMag_eq, fMag_eq, magBits_fabs]

@[simp] theorem fSign_fabs (x : F) : fSign (fabs x) = false := by
  simp [fSign, fabs]

@[simp] theorem isFinite_fabs (x : F) : isFinite (fabs x) = isFinite x := by
  rw [Bool.eq_iff_iff, isFinite_iff, isFinite_iff, magBits_fabs]

end Sys2Proof.Machine
end

