-- ==== Sys2Proof/Laws/PerInstr.lean ====
section
/-! SUPPORT. Statements for all commands, one lemma per constructor. The family EncodesWellFormed: the command word of
a command passes the checks of WellFormed.lean, and its high bits are zero (R90, R91). -/

namespace Sys2Proof.Laws.EncodesWellFormed

/-- The encoding of a command is a well-formed command word, below 256. -/
def Statement (i : Instr) : Prop := (CommandWord.ofWord (encode i)).wf = true ∧ (encode i).toNat < 256

theorem hue : Statement .hue := ⟨by decide, by decide⟩
theorem hsv : Statement .hsv := ⟨by decide, by decide⟩
theorem glyph : Statement .glyph := ⟨by decide, by decide⟩
theorem rendf : Statement .rendf := ⟨by decide, by decide⟩
theorem rendo : Statement .rendo := ⟨by decide, by decide⟩
theorem scale : Statement .scale := ⟨by decide, by decide⟩
theorem emit : Statement .emit := ⟨by decide, by decide⟩
theorem tick : Statement .tick := ⟨by decide, by decide⟩

end Sys2Proof.Laws.EncodesWellFormed
end

