-- ==== Sys2Proof/Tests/Slice0.lean ====
section
/-! SUPPORT. Tests of the definitions. Expected results are those of 95_test_vectors.md and of the worked examples of the
command rules, never the model's own answers. At the end, for each obligation with hypotheses, a witness that meets
them. -/

-- One theorem at a time: many kernel evaluations at once need more threads than the package's one process may have.
set_option Elab.async false

namespace Sys2Proof.Tests

open Sys2Proof.Machine

/-! ### The bench: the test font, the test message, and a machine right after reset (95_test_vectors.md) -/

/-- The test font `FONT_T`. -/
def fontT : Font := Vector.ofFn fun c : Fin 256 =>
  if c.val = 0x41 then #v[0b00001, 0b00011, 0b00111, 0b01111, 0b10110]
  else if c.val = 0x2A then #v[0b10101, 0b01110, 0b11111, 0b01110, 0b10101]
  else if c.val = 0x00 then #v[0b10101, 0b01010, 0b10101, 0b01010, 0b10101]
  else if c.val = 0xFF then #v[0b11111, 0b11111, 0b11111, 0b11111, 0b11111]
  else #v[0, 0, 0, 0, 0]

/-- The test message `MSG_T`, 22 bytes. -/
def messageT : Message :=
  { first := 0x2A
    rest := [0x20, 0x57, 0x48, 0x41, 0x54, 0x27, 0x53, 0x20, 0x55, 0x50, 0x2C] ++
      [0x20, 0x57, 0x4F, 0x52, 0x4C, 0x44, 0x3F, 0x20, 0x2A, 0x20] }

/-- The build of vector K-1, with the sine of vector section 3 at a quarter of a cycle. -/
def buildT : Build :=
  { font := fontT, message := messageT, speed0 := 0x3AD1B717, bright0 := 32,
    sine := [(0x3FC90FDB, 0x3F800000), (0x40490FDB, 0xB3BBBD2E)] }

/-- A block of that build right after reset. -/
def bench : State := State.afterReset buildT 0

/-- A block that has halted. -/
def halted : State := { bench with status := 1#4 }

/-- A state with one action pending. -/
def State.acting (s : State) (x : HostAction) (a : SinkAnswer) : State :=
  { s with pending := [{ action := x, answer := a }] }

/-- The outcome is a next state with the property `p`. -/
def ends (o : Host.Outcome State Fault Refusal) (p : State → Bool) : Bool :=
  match o with
  | .next t => p t
  | .fault _ => false
  | .refused _ => false

/-- The first row of five of a buffer, entries 0 to 4. -/
def firstFive (b : Buffer) : List Pixel := [b[0], b[1], b[2], b[3], b[4]]

/-- The last row of five of a buffer, entries 20 to 24. -/
def lastFive (b : Buffer) : List Pixel := [b[20], b[21], b[22], b[23], b[24]]

/-- A pixel per entry: `px(k+1, 2(k+1), 255-k)`, the buffer of vector RAS-3. -/
def rampBuffer : Buffer := Vector.ofFn fun k : Fin 25 =>
  px (BitVec.ofNat 8 (k.val + 1)) (BitVec.ofNat 8 (2 * (k.val + 1))) (BitVec.ofNat 8 (255 - k.val))

/-! ### Well-formedness: an ill-formed term for each check -/

/-- R95: a non-zero bit above the opcode. -/
theorem test_wf_high_bits : (CommandWord.ofWord 0x00000101#32).zeroOk = false := by decide

/-- R95: opcode 0 is illegal. -/
theorem test_wf_opcode_zero : (CommandWord.ofWord 0x00000000#32).opOk = false := by decide

/-- R95: the whole check refuses both, and an opcode beside a defined one. -/
theorem test_wf_word : (CommandWord.ofWord 0x00000101#32).wf = false ∧ (CommandWord.ofWord 0x00000000#32).wf = false ∧
    (CommandWord.ofWord 0x00000013#32).wf = false ∧ (CommandWord.ofWord 0x00000030#32).wf = true := by decide

/-- R6: SPEED0 above 1.0. -/
theorem test_wf_speed : { buildT with speed0 := 0x40000000 }.speedOk = false := by decide +kernel

/-- R6: a message of 2^32 bytes or more: the check refuses every rest of that length. -/
theorem test_wf_message (l : List Byte) (h : l.length = 2 ^ 32 - 1) :
    { buildT with message := { first := 0, rest := l } }.messageOk = false := by
  simp only [Build.messageOk, h, decide_eq_false_iff_not]
  decide

/-- There is such a rest. -/
theorem test_wf_message_exists : (List.replicate (2 ^ 32 - 1) (0 : Byte)).length = 2 ^ 32 - 1 := List.length_replicate

/-- R6: the build of the vectors is well formed, and the whole check refuses the fast one. -/
theorem test_wf_build : buildT.wf = true ∧ { buildT with speed0 := 0x40000000 }.wf = false := by decide +kernel

/-! ### Decoding: the words of the encoding (R90, R91): bits 31 to 8 zero, the opcode in bits 7 to 0 -/

theorem test_decode_hue : decode 0b00000000000000000000000000000001#32 = .ok .hue := rfl
theorem test_decode_hsv : decode 0b00000000000000000000000000000010#32 = .ok .hsv := rfl
theorem test_decode_glyph : decode 0b00000000000000000000000000010000#32 = .ok .glyph := rfl
theorem test_decode_rendf : decode 0b00000000000000000000000000010001#32 = .ok .rendf := rfl
theorem test_decode_rendo : decode 0b00000000000000000000000000010010#32 = .ok .rendo := rfl
theorem test_decode_scale : decode 0b00000000000000000000000000100000#32 = .ok .scale := rfl
theorem test_decode_emit : decode 0b00000000000000000000000000100001#32 = .ok .emit := rfl
theorem test_decode_tick : decode 0b00000000000000000000000000110000#32 = .ok .tick := rfl

/-- The same words as the host hands them in, and a value wider than a word. -/
theorem test_decodeTableWord : decodeTableWord 32 0x30 = some .tick ∧ decodeTableWord 32 0x31 = none ∧
    decodeTableWord 8 0x21 = some .emit ∧ decodeTableWord 64 0x100000001 = none := by decide

/-! ### Numbers (95_test_vectors.md section 4) -/

theorem test_fmul : fmul Config.twoPi 0x3F000000 = 0x40490FDB ∧ fmul Config.twoPi 0x3AD1B717 = 0x3C24B5BE ∧
    fmul 0x3F7FFFFF f255 = 0x437EFFFF ∧ fmul 0x00000001 fHalf = 0x00000000 ∧ fmul 0x00000003 fHalf = 0x00000002 := by
  decide +kernel

theorem test_fdiv : fdiv 0x41200000 f60 = 0x3E2AAAAB ∧ fdiv 0x43480000 f60 = 0x40555555 ∧ fdiv f360 f60 = 0x40C00000 := by
  decide +kernel

theorem test_frem2 : frem2 0x40400000 = 0x3F800000 ∧ frem2 0x40C00000 = 0x00000000 ∧ frem2 0x40B00000 = 0x3FC00000 ∧
    frem2 0x40BF7777 = 0x3FFDDDDC ∧ frem2 0x403FFFFF = 0x3F7FFFFC ∧ frem2 0x80000000 = 0x80000000 := by decide +kernel

/-- The second sum has the operands of row 9 of section 2.4; the row of section 4 that gives its result for the other
channel's operands contradicts R132 and that row (log 21). -/
theorem test_fadd_fsub : fadd 0x3DCCCCCD 0x3E4CCCCD = 0x3E99999A ∧ fadd 0x3DCCCCCF 0x3F333333 = 0x3F4CCCCD ∧
    fadd 0x3E99999A 0x3F333333 = 0x3F800000 ∧
    fsub f1 0x3F7FFFFF = 0x33800000 ∧ fsub 0x4B800000 f1 = 0x4B7FFFFF ∧ fsub 0x4C000000 f1 = 0x4C000000 := by
  decide +kernel

theorem test_trunc : truncU8 0x437EFFFF = 254 ∧ truncU8 0x42FF0000 = 127 ∧ truncU8 0x437F0000 = 255 ∧
    truncU8 0x3F7D70A4 = 0 ∧ truncU8 0x80000000 = 0 ∧ truncU8 0x43800000 = 255 ∧ truncU8 0x7F800000 = 255 ∧
    truncU8 0xBF800000 = 0 ∧ truncU8 0x7FC00000 = 0 := by decide +kernel

theorem test_domains : in01 0x00000000 = true ∧ in01 0x80000000 = true ∧ in01 f1 = true ∧ in01 0x00000001 = true ∧
    in01 0x3F800001 = false ∧ in01 0xBF800000 = false ∧ in01 0x80000001 = false ∧ in01 0x7F800000 = false ∧
    in01 0x7FC00000 = false ∧ inhue f360 = true ∧ inhue 0x43B40001 = false := by decide +kernel

/-! ### Colour (sections 1 to 3) -/

/-- E3: a time of +0.0 gives cyan, exactly. -/
theorem test_hue_zero : ends (exec .hue { bench with regT := 0x00000000 }) (fun t => t.color == 0x00FFFF) = true := by
  decide +kernel

/-- Section 3, rows 2 and 4, with the listed sine values: hue 360.0 is red, hue just below 180 is one below cyan. -/
theorem test_hue_sine_points : hueColor buildT 0x3E800000 = 0xFF0000 ∧ hueColor buildT 0x3F000000 = 0x00FFFE := by
  decide +kernel

/-- Sections 2.2 and 2.4: just below 60, a half-saturated sky, a product that lands on an integer. -/
theorem test_hsv_values : hsv2rgbU8 0x426FFFFF f1 f1 = 0xFFFE00 ∧ hsv2rgbU8 0x43480000 fHalf fHalf = 0x3F6A7F ∧
    hsv2rgbU8 0x42C80000 0x3E99999A f1 = 0xCCFFB2 ∧ hsv2rgbU8 0x43B38000 f1 f1 = 0xFF0004 := by decide +kernel

/-- HSV through its operand registers: hue 45, saturation 0.25, value 0.75 (section 2.4). -/
theorem test_hsv_command :
    ends (exec .hsv { bench with regH := 0x42340000, regS := 0x3E800000, regV := 0x3F400000 })
      (fun t => t.color == 0xBFB38F) = true := by decide +kernel

/-! ### Raster (section 5) -/

/-- RAS-1. -/
theorem test_glyph : ends (exec .glyph { bench with code := 0x41 }) (fun t => t.gly == 0x01679C61) = true ∧
    ends (exec .glyph { bench with code := 0x7F }) (fun t => t.gly == 0) = true := by decide +kernel

/-- RAS-2: rows 4 and 0 of the glyph. -/
theorem test_rendf : ends (exec .rendf { bench with code := 0x41, fg := 0x112233, bg := 0x000040 }) (fun t =>
    firstFive t.fb == [0x000040, 0x112233, 0x112233, 0x000040, 0x112233] &&
    lastFive t.fb == [0x112233, 0x000040, 0x000040, 0x000040, 0x000040] && t.gly == 0x01679C61) = true := by
  decide +kernel

/-- RAS-3: entries under clear bits keep their value. -/
theorem test_rendo : ends (exec .rendo { bench with code := 0x41, fg := 0x112233, fb := rampBuffer }) (fun t =>
    firstFive t.fb == [0x0102FF, 0x112233, 0x112233, 0x0408FC, 0x112233] &&
    lastFive t.fb == [0x112233, 0x162CEA, 0x172EE9, 0x1830E8, 0x1932E7]) = true := by decide +kernel

/-! ### Brightness and output (section 6) -/

/-- S-1. -/
theorem test_scale_channel : scaleCh 255 1 = 0 ∧ scaleCh 255 2 = 1 ∧ scaleCh 128 2 = 1 ∧ scaleCh 127 2 = 0 ∧
    scaleCh 200 32 = 25 ∧ scaleCh 255 255 = 254 ∧ scaleCh 1 255 = 0 := by decide

/-- S-2: entry 3 of R202's example, and FB keeps it. -/
theorem test_scale : ends (exec .scale { bench with bright := 32, fb := Vector.replicate 25 0x00C8FF }) (fun t =>
    t.out[3] == 0x00191F && t.fb[3] == 0x00C8FF) = true := by decide +kernel

/-- S-3, `ok`: the frame is recorded as channel triples and no flag is set. -/
theorem test_emit_ok : ends (exec .emit { bench with out := Vector.replicate 25 0x00191F, sinkAnswer := .ok }) (fun t =>
    (t.sinkRecord.map fun f => f[24]) == [{ r := 0, g := 25, b := 31 }] && t.status == 0) = true := by decide +kernel

/-- S-3, `fail`: HALT, nothing recorded. -/
theorem test_emit_fail : ends (exec .emit { bench with sinkAnswer := .fail }) (fun t =>
    t.sinkRecord.length == 0 && t.status == 1) = true := by decide +kernel

/-! ### Tick (section 7) -/

/-- K-1: the first tick after reset. -/
theorem test_tick_first : ends (exec .tick { bench with sinkAnswer := .ok }) (fun t =>
    t.regT == 0 && t.color == 0x00FFFF && t.fg == 0x00FFFF && t.bg == 0 && t.code == 0x2A && t.gly == 0x01577DD5 &&
    firstFive t.out == [0x001F1F, 0, 0x001F1F, 0, 0x001F1F] && t.iter == 1 && t.time == 0x3AD1B717 &&
    t.sinkRecord.length == 1 && t.status == 0) = true := by decide +kernel

/-- P5, tick 3: a refused frame halts inside the tick; ITER and TIME stay. -/
theorem test_tick_fail :
    ends (exec .tick { bench with time := 0x3F000000, speed := 0x3E800000, iter := 2, sinkAnswer := .fail }) (fun t =>
      t.color == 0x00FFFE && t.regT == 0x3F000000 && t.iter == 2 && t.time == 0x3F000000 && t.status == 1) = true := by
  decide +kernel

/-- T-2: one subtraction, a sum of exactly 1.0 left alone, and 2.0 brought to 1.0. -/
theorem test_next_time : nextTime 0x3F7FBE77 0x3AD1B717 = 0x3A1D4800 ∧ nextTime 0x3F400000 0x3E800000 = 0x3F800000 ∧
    nextTime f1 f1 = f1 ∧ nextTime f1 0x3AD1B717 = 0x3AD1B800 ∧ nextTime f1 f0 = f1 := by decide +kernel

/-- I-1: the character index, before and after the wrap of ITER. -/
theorem test_char_index : charIndex messageT 29 = 0 ∧ charIndex messageT 30 = 1 ∧ charIndex messageT 659 = 21 ∧
    charIndex messageT 660 = 0 ∧ charIndex messageT 0xFFFFFFEF = 3 ∧ charIndex messageT 0xFFFFFFFF = 4 ∧
    messageByte messageT 4 = 0x41 ∧ messageLength messageT = 22 := by decide +kernel

/-! ### The host's transactions (R61 to R64, program P4) -/

/-- RAS-1, S-2: bits outside the field are dropped. -/
theorem test_write_drops_bits :
    ends (step (State.acting bench (.write 9 0x00000141) .ok)) (fun t => t.code == 0x41) = true ∧
    ends (step (State.acting bench (.write 11 0x00000120) .ok)) (fun t => t.bright == 0x20) = true := by decide +kernel

/-- P4: an undefined command sets ECMD, a write of COLOR sets EACC. -/
theorem test_errors :
    ends (step (State.acting bench (.write 0 0x00000003) .ok)) (fun t => t.status == 4) = true ∧
    ends (step (State.acting bench (.write 6 0x00123456) .ok)) (fun t => t.status == 8) = true := by decide +kernel

/-- P4: T = 2.0 raises EDOM when HUE executes. -/
theorem test_edom :
    ends (step (State.acting { bench with regT := 0x40000000 } (.write 0 1) .ok)) (fun t => t.status == 2) = true := by
  decide +kernel

/-- P4: a halted block ignores a write, and answers a read of an unassigned index with 0 and no flag. -/
theorem test_halted :
    ends (step (State.acting { halted with regT := 0 } (.write 2 0x3E800000) .ok))
      (fun t => t.regT == 0 && t.status == 1) = true ∧
    ends (step (State.acting halted (.read 20) .ok)) (fun t => t.lastRead == 0 && t.status == 1) = true := by
  decide +kernel

/-- P2: FB[13] is index 45. -/
theorem test_read_fb : ends (step (State.acting { bench with fb := rampBuffer } (.read 45) .ok))
    (fun t => t.lastRead == 0x000E1CF2) = true := by decide +kernel

/-- R270: reset clears the halt and keeps the sink record. -/
theorem test_reset_event :
    ends (step (State.acting { halted with sinkRecord := [frameOf rampBuffer] } .reset .ok)) (fun t =>
      t.status == 0 && t.sinkRecord.length == 1 && t.speed == 0x3AD1B717 && t.bright == 32) = true := by decide +kernel

/-- The host's own check of a first instruction: TICK, from the reset machine of this build. -/
theorem test_withFetchWord : ends (step (bench.withFetchWord 32 0x30)) (fun t => t.iter == 1) = true ∧
    ends (step (bench.withFetchWord 32 0x31)) (fun t => t.status == 4) = true := by decide +kernel

/-- R98: the expansions of MOV and FILL. -/
theorem test_script : Script.mov .fg .color = [.read 6, .writeRead 7] ∧ (Script.fill 5).length = 25 ∧
    (Script.fill 5).getLast? = some (.write 56 5) ∧ Script.loopTurn = [.write 0 0x30, .wait 16] := by decide

/-! ### Witnesses: each obligation with hypotheses, its hypotheses met together, at the edges of their ranges -/

/-- A bench about to issue TICK. -/
def ticking (a : SinkAnswer) : State := State.acting bench (.write 0 0x30) a

theorem witness_DecodeInvertsEncode : decode 0x00000030#32 = .ok .tick ∧ (CommandWord.ofWord 0x00000030#32).wf = true :=
  ⟨rfl, by decide⟩

theorem witness_DecodeRefusesByName : 256 ≤ (0x00000100#32).toNat ∧ (0x000000FF#32).toNat < 256 ∧
    ∀ i : Instr, (0x000000FF#32) ≠ encode i :=
  ⟨by decide, by decide, fun i => by cases i <;> decide⟩

theorem witness_StepRunsDecodedCommand : bench.halt = false ∧ decode 0x00000001#32 = .ok .hue ∧
    (State.acting bench (.write 0 0x00000001) .ok).pending = [{ action := .write 0 0x00000001, answer := .ok }] ∧
    (State.acting { bench with lastRead := 0x00000001 } (.writeRead 0) .ok).pending =
      [{ action := .writeRead 0, answer := .ok }] ∧
    (State.acting { bench with lastRead := 0x00000001 } (.writeRead 0) .ok).lastRead = 0x00000001 :=
  ⟨by decide, rfl, rfl, rfl, rfl⟩

theorem witness_UndefinedCommandSetsEcmd : bench.halt = false ∧
    (State.acting bench (.write 0 0) .ok).pending = [{ action := .write 0 0, answer := .ok }] ∧
    ∀ i : Instr, (0#32) ≠ encode i :=
  ⟨by decide, rfl, fun i => by cases i <;> decide⟩

theorem witness_WriteReadIsAWrite :
    (State.acting bench (.writeRead 7) .ok).pending = [{ action := .writeRead 7, answer := .ok }] := rfl

theorem witness_IdleAndWaitKeepState : bench.pending = [] ∧
    (State.acting bench (.wait 16) .ok).pending = [{ action := .wait 16, answer := .ok }] := ⟨rfl, rfl⟩

theorem witness_SubWordAccessIsRefused :
    (State.acting bench (.subWord 2 8) .ok).pending = [{ action := .subWord 2 8, answer := .ok }] := rfl

/-- For StepConsumesOneAction, StepKeepsBuild and SinkRecordOnlyGrows: a step that has a next state and does work. -/
theorem witness_step_next :
    (∃ t, step (ticking .ok) = .next t) ∧ (∃ t, step (State.acting halted .reset .ok) = .next t) ∧
    ends (step (ticking .ok)) (fun t => t.pending.length == 0 && t.sinkRecord.length == 1) = true :=
  ⟨⟨_, rfl⟩, ⟨_, rfl⟩, by decide +kernel⟩

theorem witness_HueComputesColor : in01 { bench with regT := 0x3F800000 }.regT = true ∧
    in01 { bench with regT := 0x3F800001 }.regT = false ∧ in01 { bench with regT := 0x80000001 }.regT = false ∧
    { bench with regT := 0x00000000 }.regT = 0x00000000#32 := ⟨by decide +kernel, by decide +kernel, by decide +kernel, rfl⟩

/-- For HueComputesColor at -0.0: a build whose sine of -0.0 is -0.0. -/
theorem witness_HueComputesColor_negative_zero :
    { bench with regT := 0x80000000, build := { buildT with sine := [(0x80000000, 0x80000000)] } }.regT = 0x80000000#32 ∧
    fMag (sine { buildT with sine := [(0x80000000, 0x80000000)] } 0x80000000) = 0 := by decide +kernel

theorem witness_HsvComputesColor : (inhue f360 && in01 f1 && in01 f0) = true ∧
    (inhue 0x43B40001 && in01 f1 && in01 f1) = false ∧ (inhue f0 && in01 0x3FC00000 && in01 f1) = false ∧
    (inhue f0 && in01 f1 && in01 0xBF800000) = false ∧ fMag 0x80000000 = 0 ∧ in01 0x80000000 = true := by decide +kernel

/-- For BandBySector and FullSaturationChannels: a hue in each sector, at its lower edge, and below the first limit. -/
theorem witness_sectors : inhue f360 = true ∧ fMag 0x426FFFFF / (60 * 2 ^ 149) = 0 ∧ fMag f60 / (60 * 2 ^ 149) = 1 ∧
    fMag f120 / (60 * 2 ^ 149) = 2 ∧ fMag f180 / (60 * 2 ^ 149) = 3 ∧ fMag f240 / (60 * 2 ^ 149) = 4 ∧
    fMag f300 / (60 * 2 ^ 149) = 5 ∧ fMag f360 / (60 * 2 ^ 149) = 6 ∧ inhue 0x426FFFFF = true ∧ inhue f300 = true := by
  decide +kernel

theorem witness_QuantisationTruncates : in01 0x3F7FFFFF = true ∧ (0x3F7FFFFF : F) ≠ 0x3F800000#32 := by decide +kernel

theorem witness_HueOfTimeIsInRange : in01 0x00000000 = true ∧ in01 0x80000000 = true ∧ in01 0x3F800000 = true := by
  decide +kernel

theorem witness_ChannelsStayInUnitInterval : inhue f360 = true ∧ in01 fHalf = true ∧ in01 f1 = true ∧
    (hsv2rgbF f360 fHalf f1).1 ∈
      [(hsv2rgbF f360 fHalf f1).1, (hsv2rgbF f360 fHalf f1).2.1, (hsv2rgbF f360 fHalf f1).2.2] :=
  ⟨by decide +kernel, by decide +kernel, by decide +kernel, List.mem_cons_self⟩

theorem witness_SineHasItsProperties : isFinite 0x3FC90FDB = true ∧ isFinite 0x7F7FFFFF = true := by decide +kernel

theorem witness_PatternValues : (0 ≤ 255 ∧ 0 < 255 ∧ 1 < 2 ^ 23) ∧ (254 ≤ 255 ∧ 254 < 255 ∧ 2 ^ 23 - 1 < 2 ^ 23) ∧
    (255 ≤ 255 ∧ 0 < 2 ^ 23) := by decide

/-- A tie between two representable magnitudes. -/
theorem witness_RoundingIsNearestTiesToEven : 0 < 1 ∧ isFinite (roundMag false (2 ^ 24 + 1) 1) = true ∧
    isFinite 0x01000001 = true ∧ fMag (roundMag false (2 ^ 24 + 1) 1) = 2 ^ 24 ∧ fMag 0x01000001 = 2 ^ 24 + 2 := by
  decide +kernel

theorem witness_PrimitivesRoundOnce : isFinite f1 = true ∧ isFinite f60 = true ∧ fVal f1 + fVal f60 ≠ 0 ∧
    fVal f1 - fVal f60 ≠ 0 ∧ fMag f60 ≠ 0 := by decide +kernel

theorem witness_RemainderIsExact : isFinite 0x40B00000 = true ∧ fSign 0x40B00000 = false ∧ isFinite 0xC0B00000 = true := by
  decide +kernel

theorem witness_ComparisonsAreOfValues : isNaN 0x7FC00000 = true ∧ isNaN 0x7F800000 = false ∧ isNaN f0 = false := by
  decide +kernel

theorem witness_TruncationIsFloor : (isFinite 0x437FFFFF = true ∧ fSign 0x437FFFFF = false ∧ fMag 0x437FFFFF < 256 * 2 ^ 149) ∧
    (isNaN 0x80000000 = false ∧ fSign 0x80000000 = true) ∧
    (isNaN 0x43800000 = false ∧ fSign 0x43800000 = false ∧ 256 * 2 ^ 149 ≤ fMag 0x43800000) ∧ isNaN 0xFFC00000 = true := by
  decide +kernel

theorem witness_RenderIsIdempotent : (∃ t, exec .rendf bench = .next t) ∧ (∃ t, exec .rendo bench = .next t) :=
  ⟨⟨_, rfl⟩, ⟨_, rfl⟩⟩

theorem witness_ScaleWritesOut : { bench with bright := 1 }.bright.toNat ≤ 1 := by decide

theorem witness_ScaleChannelLaws : (0x7F : Byte).toNat ≤ (0xFF : Byte).toNat ∧ ∃ t, exec .scale bench = .next t :=
  ⟨by decide, ⟨_, rfl⟩⟩

theorem witness_EmitHandsOverOut : { bench with sinkAnswer := .ok }.sinkAnswer = .ok ∧
    { bench with sinkAnswer := .fail }.sinkAnswer = .fail := ⟨rfl, rfl⟩

/-- For TickPerformsItsLines and TickEqualsCommandSequence: the ends of the domain, and outside it, both answers. -/
theorem witness_tick : { bench with time := f1, speed := f1, sinkAnswer := .ok }.tickDomain = true ∧
    { bench with time := f1, speed := f1, sinkAnswer := .fail }.tickDomain = true ∧
    (in01 f1 && in01 f1) = true ∧ (in01 0x3F800001 && in01 f1) = false := by decide +kernel

theorem witness_TimeWrapsExactlyOnce : in01 f1 = true ∧ fgt (fadd f1 f1) f1 = true ∧ in01 0x3F400000 = true ∧
    in01 0x3E800000 = true ∧ fgt (fadd 0x3F400000 0x3E800000) f1 = false ∧ in01 0x80000000 = true ∧
    nextTime 0x80000000 0x80000000 = 0x80000000#32 := by decide +kernel

theorem witness_CharacterIndexCycles : 21 < messageLength messageT ∧ 2 ^ 32 - 1 < 2 ^ 32 ∧ 2 ^ 32 - 2 + 1 < 2 ^ 32 ∧
    2 ^ 32 - 661 + 30 * messageLength messageT < 2 ^ 32 := by
  decide

theorem witness_IterationWrapsSilently : { bench with iter := 0xFFFFFFFF }.tickDomain = true ∧
    { bench with iter := 0xFFFFFFFF, sinkAnswer := .ok }.iter = 0xFFFFFFFF#32 ∧ messageLength messageT = 22 := by
  decide +kernel

theorem witness_IndexMapIsTheTable : hostIndex (.fb 24) = some 56 ∧ hostIndex (.out 24) = some 88 ∧ hostReg 0 = .cmd ∧
    hostReg 32 = .fb 0 ∧ hostReg 64 = .out 0 ∧ hostReg 15 = .cidx ∧
    (∀ idx ∈ [16, 31, 57, 63, 89], hostReg idx = .unassigned) := by decide

/-- For ReadReturnsStoredBits and IllegalAccessSetsEacc: a read of each edge of the map pending, running and halted. -/
theorem witness_reads : bench.halt = false ∧ halted.halt = true ∧
    ∀ idx ∈ [0, 1, 15, 16, 31, 32, 56, 57, 63, 64, 88, 89],
      (State.acting bench (.read idx) .ok).pending = [{ action := .read idx, answer := .ok }] ∧
      (State.acting halted (.read idx) .ok).pending = [{ action := .read idx, answer := .ok }] :=
  ⟨by decide, by decide, fun _ _ => ⟨rfl, rfl⟩⟩

/-- For WriteStoresField and IllegalAccessSetsEacc: a write to each edge of the map pending, running and halted. -/
theorem witness_writes : bench.halt = false ∧ halted.halt = true ∧ decode 0x00000020#32 = .ok .scale ∧
    ∀ idx ∈ [0, 1, 2, 6, 10, 14, 15, 16, 31, 32, 56, 57, 63, 64, 88, 89],
      (State.acting bench (.write idx 0x20) .ok).pending = [{ action := .write idx 0x20, answer := .ok }] ∧
      (State.acting halted (.write idx 0x20) .ok).pending = [{ action := .write idx 0x20, answer := .ok }] :=
  ⟨by decide, by decide, rfl, fun _ _ => ⟨rfl, rfl⟩⟩

/-- For the last clause of ReadReturnsStoredBits: two reads of one index, one after the other. -/
def readTwice : State :=
  { bench with pending := [{ action := .read 16, answer := .ok }, { action := .read 16, answer := .fail }] }

theorem witness_ReadReturnsStoredBits_twice :
    readTwice.pending = { action := .read 16, answer := .ok } :: [{ action := .read 16, answer := .fail }] := rfl

theorem witness_MovCopiesColorToForeground : bench.halt = false ∧
    { bench with pending := Script.events .ok (Script.mov .fg .color) }.pending =
      Script.events .ok (Script.mov .fg .color) := ⟨by decide, rfl⟩

/-- For FlagsAreSticky and AtMostOneErrorPerStep: a flag set, and a step that raises another. -/
theorem witness_flags : (State.acting { bench with status := 2#4 } (.read 16) .ok).flag .edom = true ∧
    (State.acting { bench with status := 2#4 } (.read 16) .ok).nextAction ≠ some .reset ∧
    ends (step (State.acting { bench with status := 2#4 } (.read 16) .ok)) (fun t => t.status == 10) = true := by
  decide +kernel

/-- For FlagsHaveTheirOrigins: a step that sets each flag, EACC by a read and by a write. -/
theorem witness_FlagsHaveTheirOrigins : ends (step (ticking .fail)) (fun t => t.flag .transmitError) = true ∧
    ends (step (State.acting { bench with regT := 0x7FC00000 } (.write 0 1) .ok)) (fun t => t.flag .edom) = true ∧
    ends (step (State.acting bench (.write 0 3) .ok)) (fun t => t.flag .ecmd) = true ∧
    ends (step (State.acting bench (.read 0) .ok)) (fun t => t.flag .eacc) = true ∧
    ends (step (State.acting bench (.write 1 0) .ok)) (fun t => t.flag .eacc) = true ∧ bench.status = 0 := by
  decide +kernel

theorem witness_HaltedBlockOnlyAnswersReads : halted.halt = true ∧
    (∃ t, step (State.acting halted (.read 2) .ok) = .next t) ∧
    (∃ t, step (State.acting halted (.write 0 0x30) .ok) = .next t) ∧
    (State.acting halted (.read 2) .ok).nextAction = some (.read 2) := ⟨by decide, ⟨_, rfl⟩, ⟨_, rfl⟩, rfl⟩

/-- For ResultRegistersHaveTheirWriters: a step that changes each of the three. -/
theorem witness_ResultRegistersHaveTheirWriters :
    ends (step (State.acting { bench with regT := 0, color := 0 } (.write 0 1) .ok)) (fun t => t.color != 0) = true ∧
    ends (step (State.acting { bench with code := 0x41, gly := 0 } (.write 0 0x10) .ok)) (fun t => t.gly != 0) = true ∧
    ends (step (State.acting { bench with fb := rampBuffer, bright := 255, out := Vector.replicate 25 0 }
      (.write 0 0x20) .ok)) (fun t => t.out[24] != 0) = true := by decide +kernel

/-- For OnlyTheHostWritesOperands: a step that changes each of the five. -/
theorem witness_OnlyTheHostWritesOperands :
    ends (step (State.acting { bench with regH := 0 } (.write 3 1) .ok)) (fun t => t.regH == 1) = true ∧
    ends (step (State.acting { bench with regS := 0 } (.write 4 1) .ok)) (fun t => t.regS == 1) = true ∧
    ends (step (State.acting { bench with regV := 0 } (.write 5 1) .ok)) (fun t => t.regV == 1) = true ∧
    ends (step (State.acting bench (.write 11 1) .ok)) (fun t => t.bright == 1) = true ∧
    ends (step (State.acting bench (.write 13 1) .ok)) (fun t => t.speed == 1) = true := by decide +kernel

theorem witness_ResetEvent : (State.acting halted .reset .ok).pending = [{ action := .reset, answer := .ok }] := rfl

/-- For StepKeepsTimeInDomain and TickNeverRaisesEdomInDomain: a TICK pending under the invariant, both answers. -/
theorem witness_domain (a : SinkAnswer) : DomainInv (ticking a) ∧ (ticking a).nextCommand = some .tick ∧
    (ticking a).nextAnswer = some a ∧ ∃ t, step (ticking a) = .next t := by
  refine ⟨⟨by cases a <;> decide +kernel, by cases a <;> decide +kernel, ?_⟩, by cases a <;> rfl, rfl, by cases a <;> exact ⟨_, rfl⟩⟩
  intro e he
  simp only [ticking, State.acting, List.mem_singleton] at he
  subst he
  rfl

end Sys2Proof.Tests
end

/-! ### What a step with a next state can do (20_memory.md R64, R70) -/

namespace Sys2Proof.Machine

/-- A step is idle, or it performs the host's next action on the state that has issued it (R70, R262). -/
theorem step_next_cases {s t : State} (h : step s = .next t) :
    (s.pending = [] ∧ t = s) ∨
      ∃ e rest, s.pending = e :: rest ∧ (s.issue rest e.answer).perform e.action = .next t := by
  cases hp : s.pending with
  | nil =>
    rw [step_nil hp, Host.Outcome.next.injEq] at h
    exact Or.inl ⟨rfl, h.symm⟩
  | cons e rest =>
    rw [step_cons hp] at h
    exact Or.inr ⟨e, rest, rfl, h⟩

/-- The four effects of a write (R64, R92, R248): it is ignored, runs a command, raises ECMD, or reaches a register. -/
theorem regWrite_next_cases {s t : State} {idx : Nat} {v : Word} (h : s.regWrite idx v = .next t) :
    (s.halt = true ∧ t = s) ∨
      (s.halt = false ∧ idx = 0 ∧ ∃ i, decode v = .ok i ∧ exec i s = .next t) ∨
      (s.halt = false ∧ idx = 0 ∧ (∀ i, decode v ≠ .ok i) ∧ t = s.raise .ecmd) ∨
      (s.halt = false ∧ idx ≠ 0 ∧ t = s.writeReg v (hostReg idx)) := by
  rcases regWrite_cases s idx v with ⟨hh, hw⟩ | ⟨hh, h0, hw⟩ | ⟨hh, h0, hw⟩ <;> rw [hw] at h
  · exact Or.inl ⟨hh, (Host.Outcome.next.inj h).symm⟩
  · rcases command_cases s v with ⟨i, hd, hc⟩ | ⟨hd, hc⟩ <;> rw [hc] at h
    · exact Or.inr (Or.inl ⟨hh, h0, i, hd, h⟩)
    · exact Or.inr (Or.inr (Or.inl ⟨hh, h0, hd, (Host.Outcome.next.inj h).symm⟩))
  · exact Or.inr (Or.inr (Or.inr ⟨hh, h0, (Host.Outcome.next.inj h).symm⟩))

/-! ### The build parameters are constant (00_scope.md R6, 10_state.md R20) -/

@[simp] theorem State.writeReg_build (s : State) (v : Word) (r : HostReg) : (s.writeReg v r).build = s.build := by
  cases r <;> rfl

@[simp] theorem State.regRead_build (s : State) (idx : Nat) : (s.regRead idx).build = s.build := by
  rcases regRead_cases s idx with ⟨_, hr⟩ | ⟨_, hr⟩ <;> simp [hr]

theorem regWrite_keeps_build {s t : State} {idx : Nat} {v : Word} (h : s.regWrite idx v = .next t) :
    t.build = s.build := by
  rcases regWrite_next_cases h with ⟨_, rfl⟩ | ⟨_, _, _, _, hx⟩ | ⟨_, _, _, rfl⟩ | ⟨_, _, rfl⟩
  · rfl
  · exact (exec_frame hx).build
  · exact State.raise_build s .ecmd
  · exact State.writeReg_build s v (hostReg idx)

/-- No action of the host changes the build, reset included: it starts the block again with its own build (R270). -/
theorem perform_keeps_build {s t : State} {x : HostAction} (h : s.perform x = .next t) : t.build = s.build := by
  cases x with
  | read idx =>
    obtain rfl := Host.Outcome.next.inj h
    exact State.regRead_build s idx
  | write idx v => exact regWrite_keeps_build h
  | writeRead idx => exact regWrite_keeps_build h
  | wait ms =>
    obtain rfl := Host.Outcome.next.inj h
    rfl
  | reset =>
    obtain rfl := Host.Outcome.next.inj h
    exact State.applyReset_build s
  | subWord idx bits => simp [State.perform] at h

/-- Settles O11: an idle step keeps the state, and any other step is one host action, none of which touches the build. -/
theorem stepKeepsBuild : Obligations.StepKeepsBuild := by
  intro s t h
  rcases step_next_cases h with ⟨_, rfl⟩ | ⟨e, rest, _, hx⟩
  · rfl
  · rw [perform_keeps_build hx, State.issue_build]

end Sys2Proof.Machine

/-! ### What a step that is no reset can do (20_memory.md R63, R64; 30_encoding.md R92; 60_exceptions.md R246) -/

namespace Sys2Proof.Machine

/-- The ways a step that is no reset can end, `s.issue rest a` being the state that has issued the host's action. -/
inductive StepEffect (s : State) (rest : List HostEvent) (a : SinkAnswer) : State → Prop where
  /-- Idle, a wait, or a write a halted block ignores. -/
  | keep (hr : ∀ idx, s.nextAction ≠ some (.read idx)) : StepEffect s rest a (s.issue rest a)
  | read {idx : Nat} (hr : s.nextAction = some (.read idx)) : StepEffect s rest a ((s.issue rest a).regRead idx)
  | command {i : Instr} {t : State} (hc : s.nextCommand = some i) (ha : s.nextAnswer = some a)
      (hx : exec i (s.issue rest a) = .next t) : StepEffect s rest a t
  | undefinedCommand {v : Word} (hh : s.halt = false) (hw : s.nextWrite = some (0, v)) (hd : ∀ i, decode v ≠ .ok i) :
      StepEffect s rest a ((s.issue rest a).raise .ecmd)
  | store {idx : Nat} {v : Word} (hh : s.halt = false) (hw : s.nextWrite = some (idx, v)) (h0 : idx ≠ 0) :
      StepEffect s rest a ((s.issue rest a).writeReg v (hostReg idx))

theorem regWrite_effect {s t : State} {rest : List HostEvent} {a : SinkAnswer} {idx : Nat} {v : Word}
    (hw : s.nextWrite = some (idx, v)) (ha : s.nextAnswer = some a)
    (h : (s.issue rest a).regWrite idx v = .next t) : StepEffect s rest a t := by
  rcases regWrite_next_cases h with ⟨_, rfl⟩ | ⟨hh, rfl, i, hd, hx⟩ | ⟨hh, rfl, hd, rfl⟩ | ⟨hh, h0, rfl⟩
  · exact .keep fun j hj => by simp [State.nextWrite, hj] at hw
  · rw [halt_issue] at hh
    have hc : s.nextCommand = some i := by simp [State.nextCommand, hh, hw, hd, Except.toOption]
    exact .command hc ha hx
  · exact .undefinedCommand hh hw hd
  · exact .store hh hw h0

theorem step_effect {s t : State} (h : step s = .next t) (hr : s.nextAction ≠ some .reset) :
    ∃ rest a, StepEffect s rest a t := by
  rcases step_next_cases h with ⟨hp, rfl⟩ | ⟨e, rest, hp, hx⟩
  · exact ⟨t.pending, t.sinkAnswer, .keep (by simp [State.nextAction, hp])⟩
  · have hact : s.nextAction = some e.action := by simp [State.nextAction, hp]
    have hans : s.nextAnswer = some e.answer := by simp [State.nextAnswer, hp]
    refine ⟨rest, e.answer, ?_⟩
    cases he : e.action <;> rw [he] at hx hact
    case read idx =>
      obtain rfl := Host.Outcome.next.inj hx
      exact .read hact
    case write idx v => exact regWrite_effect (by simp [State.nextWrite, hact]) hans hx
    case writeRead idx => exact regWrite_effect (by simp [State.nextWrite, hact]) hans hx
    case wait ms =>
      obtain rfl := Host.Outcome.next.inj hx
      exact .keep (by simp [hact])
    case reset => exact absurd hact hr
    case subWord idx bits => simp [State.perform] at hx

/-! ### The state a command ends in (45_other_classes.md R234) -/

/-- The next state of a command. -/
def commandResult : Instr → State → State
  | .hue, s => if s.hueDomain then s.setColor (hueColor s.build s.regT) else s.raise .edom
  | .hsv, s => if s.hsvDomain then s.setColor (hsv2rgbU8 s.regH s.regS s.regV) else s.raise .edom
  | .glyph, s => s.setGly (packGlyph (fontGlyph s.build.font s.code))
  | .rendf, s => s.paint (fontGlyph s.build.font s.code) s.fg (some s.bg)
  | .rendo, s => s.paint (fontGlyph s.build.font s.code) s.fg none
  | .scale, s => s.setOut (scaleBuffer s.fb s.bright)
  | .emit, s => s.sendOut
  | .tick, s => if s.tickDomain then s.tickFrame.tickFinish else s.raise .edom

theorem exec_eq (i : Instr) (s : State) : exec i s = .next (commandResult i s) := by cases i <;> rfl

theorem exec_next {i : Instr} {s t : State} (h : exec i s = .next t) : t = commandResult i s := by
  rw [exec_eq, Host.Outcome.next.injEq] at h
  exact h.symm

/-! ### Flags are only ever added (10_state.md R25, 60_exceptions.md R248) -/

/-- STATUS is kept, or it gains the flag of one cause. -/
def StatusGrows (s t : State) : Prop := t.status = s.status ∨ ∃ c : Cause, t.status = statusWith s.status c

theorem StatusGrows.raise (s : State) (c : Cause) : StatusGrows s (s.raise c) := Or.inr ⟨c, rfl⟩

theorem StatusGrows.flag {s t : State} (h : StatusGrows s t) {c : Cause} (hs : s.flag c = true) : t.flag c = true := by
  rcases h with h | ⟨d, h⟩
  · rwa [State.flag, h]
  · have ht : t.flag c = (s.raise d).flag c := by rw [State.flag, h]; rfl
    rw [ht, flag_raise, hs, Bool.true_or]

theorem sendOut_statusGrows (s : State) : StatusGrows s s.sendOut := by
  cases ha : s.sinkAnswer
  · rw [sendOut_ok ha]
    exact Or.inl rfl
  · rw [sendOut_fail ha]
    exact .raise s .transmitError

theorem tick_statusGrows (s : State) : StatusGrows s s.tickFrame.tickFinish := by
  cases ha : s.sinkAnswer
  · rw [tickFinish_ok (s := s.tickFrame) ha]
    exact Or.inl (by simp)
  · rw [tickFinish_fail (s := s.tickFrame) ha]
    exact .raise s .transmitError

theorem exec_statusGrows {i : Instr} {s t : State} (h : exec i s = .next t) : StatusGrows s t := by
  obtain rfl := exec_next h
  cases i
  case hue | hsv =>
    rw [commandResult]
    split
    · exact Or.inl rfl
    · exact .raise s .edom
  case glyph | rendf | rendo | scale => exact Or.inl (by simp [commandResult])
  case emit => exact sendOut_statusGrows s
  case tick =>
    rw [commandResult]
    split
    · exact tick_statusGrows s
    · exact .raise s .edom

theorem regRead_statusGrows (s : State) (idx : Nat) : StatusGrows s (s.regRead idx) := by
  rcases regRead_cases s idx with ⟨_, hr⟩ | ⟨_, hr⟩ <;> rw [hr]
  · exact Or.inl rfl
  · exact .raise s .eacc

theorem writeReg_statusGrows (s : State) (v : Word) (r : HostReg) : StatusGrows s (s.writeReg v r) := by
  cases r
  case cmd | status | color | gly | cidx | unassigned | out => exact .raise s .eacc
  all_goals exact Or.inl rfl

theorem step_statusGrows {s t : State} (h : step s = .next t) (hr : s.nextAction ≠ some .reset) : StatusGrows s t := by
  obtain ⟨rest, a, he⟩ := step_effect h hr
  cases he with
  | keep => exact Or.inl rfl
  | read => exact regRead_statusGrows (s.issue rest a) _
  | command _ _ hx => exact exec_statusGrows (s := s.issue rest a) hx
  | undefinedCommand => exact .raise s .ecmd
  | store => exact writeReg_statusGrows (s.issue rest a) _ _

/-- Settles O47: a step that is no reset keeps STATUS or adds one flag to it. -/
theorem flagsAreSticky : Obligations.FlagsAreSticky :=
  fun _ _ _ h hr => (step_statusGrows h hr).flag

/-! ### What can change a register (10_state.md R21, R27) -/

/-- A field that issuing an action, receiving a read word and raising an error leave as it is. -/
structure DataField {α : Type} (f : State → α) : Prop where
  issue : ∀ s rest a, f (s.issue rest a) = f s
  setLastRead : ∀ s w, f (s.setLastRead w) = f s
  raise : ∀ s c, f (s.raise c) = f s

theorem dataField_color : DataField State.color := ⟨State.issue_color, State.setLastRead_color, State.raise_color⟩
theorem dataField_gly : DataField State.gly := ⟨State.issue_gly, State.setLastRead_gly, State.raise_gly⟩
theorem dataField_out : DataField State.out := ⟨State.issue_out, State.setLastRead_out, State.raise_out⟩
theorem dataField_regH : DataField State.regH := ⟨State.issue_regH, State.setLastRead_regH, State.raise_regH⟩
theorem dataField_regS : DataField State.regS := ⟨State.issue_regS, State.setLastRead_regS, State.raise_regS⟩
theorem dataField_regV : DataField State.regV := ⟨State.issue_regV, State.setLastRead_regV, State.raise_regV⟩
theorem dataField_bright : DataField State.bright :=
  ⟨State.issue_bright, State.setLastRead_bright, State.raise_bright⟩
theorem dataField_speed : DataField State.speed := ⟨State.issue_speed, State.setLastRead_speed, State.raise_speed⟩

/-- What a write that reaches register `r` leaves as it is: the results of the commands always, and each operand no
command writes unless `r` is that operand. -/
structure WriteFrame (r : HostReg) (s t : State) : Prop where
  color : t.color = s.color
  gly : t.gly = s.gly
  out : t.out = s.out
  regH : r ≠ .regH → t.regH = s.regH
  regS : r ≠ .regS → t.regS = s.regS
  regV : r ≠ .regV → t.regV = s.regV
  bright : r ≠ .bright → t.bright = s.bright
  speed : r ≠ .speed → t.speed = s.speed

theorem writeReg_frame (s : State) (v : Word) (r : HostReg) : WriteFrame r s (s.writeReg v r) := by
  cases r <;> constructor <;> simp [State.writeReg]

section
variable {α : Type} {f : State → α} {s t : State}

theorem DataField.regRead (hf : DataField f) (s : State) (idx : Nat) : f (s.regRead idx) = f s := by
  rcases regRead_cases s idx with ⟨_, hr⟩ | ⟨_, hr⟩ <;> rw [hr]
  · exact hf.setLastRead s _
  · rw [hf.raise, hf.setLastRead]

/-- Such a field changes only by a command that changes it or by a register write that changes it. -/
theorem DataField.change_cases (hf : DataField f) (h : step s = .next t) (hr : s.nextAction ≠ some .reset)
    (hne : f t ≠ f s) :
    (∃ i u, s.nextCommand = some i ∧ exec i u = .next t ∧ f t ≠ f u) ∨
      ∃ idx v u, s.nextWrite = some (idx, v) ∧ f (State.writeReg u v (hostReg idx)) ≠ f u := by
  obtain ⟨rest, a, he⟩ := step_effect h hr
  rw [← hf.issue s rest a] at hne
  cases he with
  | keep => exact absurd rfl hne
  | read => exact absurd (hf.regRead _ _) hne
  | command hc _ hx => exact Or.inl ⟨_, _, hc, hx, hne⟩
  | undefinedCommand => exact absurd (hf.raise _ _) hne
  | store _ hw => exact Or.inr ⟨_, _, _, hw, hne⟩

theorem DataField.changed_by_command (hf : DataField f) (l : List Instr)
    (hexec : ∀ {i : Instr} {u t : State}, exec i u = .next t → i ∉ l → f t = f u)
    (hstore : ∀ {r : HostReg} {u t : State}, WriteFrame r u t → f t = f u)
    (h : step s = .next t) (hr : s.nextAction ≠ some .reset) (hne : f t ≠ f s) : s.nextCommand ∈ l.map some := by
  rcases hf.change_cases h hr hne with ⟨i, u, hc, hx, hu⟩ | ⟨idx, v, u, _, hu⟩
  · rw [hc]
    exact List.mem_map_of_mem (by_contra fun hi => hu (hexec hx hi))
  · exact absurd (hstore (writeReg_frame u v _)) hu

end

/-! ### COLOR, GLY and OUT (10_state.md R21, R27) -/

/-- Handing OUT to the sink leaves every data field, the sink record being none of them. -/
theorem DataField.sendOut {α : Type} {f : State → α} (hf : DataField f) (haccept : ∀ s b, f (State.accept s b) = f s)
    (s : State) : f s.sendOut = f s := by
  cases ha : s.sinkAnswer
  · rw [sendOut_ok ha, haccept]
  · rw [sendOut_fail ha, hf.raise]

theorem exec_keeps_color {i : Instr} {s t : State} (h : exec i s = .next t) (hi : i ∉ [.hue, .hsv, .tick]) :
    t.color = s.color := by
  obtain rfl := exec_next h
  cases i
  case hue | hsv | tick => simp at hi
  case glyph | rendf | rendo | scale => simp [commandResult]
  case emit => exact dataField_color.sendOut State.accept_color s

theorem exec_keeps_gly {i : Instr} {s t : State} (h : exec i s = .next t) (hi : i ∉ [.glyph, .rendf, .rendo, .tick]) :
    t.gly = s.gly := by
  obtain rfl := exec_next h
  cases i
  case glyph | rendf | rendo | tick => simp at hi
  case hue | hsv =>
    rw [commandResult]
    split <;> simp
  case scale => simp [commandResult]
  case emit => exact dataField_gly.sendOut State.accept_gly s

theorem exec_keeps_out {i : Instr} {s t : State} (h : exec i s = .next t) (hi : i ∉ [.scale, .tick]) :
    t.out = s.out := by
  obtain rfl := exec_next h
  cases i
  case scale | tick => simp at hi
  case hue | hsv =>
    rw [commandResult]
    split <;> simp
  case glyph | rendf | rendo => simp [commandResult]
  case emit => exact dataField_out.sendOut State.accept_out s

/-- Settles O52: no host write reaches the three registers, and the commands not listed keep them. -/
theorem resultRegistersHaveTheirWriters : Obligations.ResultRegistersHaveTheirWriters := by
  intro s t h hr
  exact ⟨dataField_color.changed_by_command [.hue, .hsv, .tick] exec_keeps_color (·.color) h hr,
    dataField_gly.changed_by_command [.glyph, .rendf, .rendo, .tick] exec_keeps_gly (·.gly) h hr,
    dataField_out.changed_by_command [.scale, .tick] exec_keeps_out (·.out) h hr⟩

/-! ### H, S, V, BRIGHT and SPEED (10_state.md R21) -/

/-- A register that has an index is named by that index only (20_memory.md R61). -/
theorem eq_of_hostIndex_hostReg {idx n : Nat} (h : hostIndex (hostReg idx) = some n) : n = idx := by
  rcases hostReg_cases idx with hlt | ⟨k, hk, hreg⟩ | ⟨k, hk, hreg⟩ | ⟨_, hreg⟩
  · interval_cases idx <;> exact (Option.some.inj h).symm
  · rw [hreg] at h
    exact hk ▸ (Option.some.inj h).symm
  · rw [hreg] at h
    exact hk ▸ (Option.some.inj h).symm
  · rw [hreg] at h
    cases h

/-- A data field no command changes, and of the registers only a write of `r` changes, changes only by a host write to
the index of `r`. -/
theorem DataField.changed_by_own_write {α : Type} {f : State → α} {s t : State} (hf : DataField f) (r : HostReg)
    {n : Nat} (hn : hostIndex r = some n)
    (hexec : ∀ {u t : State}, CommandFrame u t → f t = f u)
    (hstore : ∀ {r' : HostReg} {u t : State}, WriteFrame r' u t → r' ≠ r → f t = f u)
    (h : step s = .next t) (hr : s.nextAction ≠ some .reset) (hne : f t ≠ f s) : ∃ v, s.nextWrite = some (n, v) := by
  rcases hf.change_cases h hr hne with ⟨i, u, _, hx, hu⟩ | ⟨idx, v, u, hw, hu⟩
  · exact absurd (hexec (exec_frame hx)) hu
  · have hreg : hostReg idx = r := by_contra fun hother => hu (hstore (writeReg_frame u v _) hother)
    have hidx : n = idx := eq_of_hostIndex_hostReg (hreg ▸ hn)
    exact ⟨v, hidx ▸ hw⟩

/-- Settles O53: no command writes these registers, and a host write reaches only the register of its own index. -/
theorem onlyTheHostWritesOperands : Obligations.OnlyTheHostWritesOperands := by
  intro s t h hr
  exact ⟨dataField_regH.changed_by_own_write .regH rfl (·.regH) (·.regH) h hr,
    dataField_regS.changed_by_own_write .regS rfl (·.regS) (·.regS) h hr,
    dataField_regV.changed_by_own_write .regV rfl (·.regV) (·.regV) h hr,
    dataField_bright.changed_by_own_write .bright rfl (·.bright) (·.bright) h hr,
    dataField_speed.changed_by_own_write .speed rfl (·.speed) (·.speed) h hr⟩

/-! ### The state after reset (10_state.md R33, 00_scope.md R6) -/

theorem charIndex_zero (m : Message) : charIndex m 0#32 = 0 := by
  simp [charIndex]

theorem resetBuild_speedOk : resetBuild.speedOk = true := by
  show in01 resetSpeed0 = true
  unfold resetSpeed0
  split
  · assumption
  · decide

/-- The reset machine's message is cut to the length R6 allows. -/
theorem resetBuild_messageOk : resetBuild.messageOk = true := by
  have hlen : resetBuild.message.rest.length ≤ 2 ^ 32 - 2 := List.length_take_le _ _
  exact decide_eq_true (by omega)

theorem resetBuild_wf : resetBuild.wf = true := by
  rw [Build.wf, resetBuild_speedOk, resetBuild_messageOk, Bool.and_self]

/-- Settles O54: R33's values stand in `State.afterReset`, and the reset machine's build is cut to R6's constraints. -/
theorem resetState : Obligations.ResetState := by
  have hcidx : State.reset.readWord .cidx = 0#32 := by
    show BitVec.ofNat 32 (charIndex resetBuild.message 0#32) = 0#32
    rw [charIndex_zero]
  exact ⟨rfl, rfl, rfl, hcidx, rfl, rfl, resetBuild_wf⟩

end Sys2Proof.Machine

/-! ### Accesses narrower than a word, and what stops a step (20_memory.md R63 to R65) -/

namespace Sys2Proof.Machine

/-- Settles O8: performing such an access is the refusal itself. -/
theorem subWordAccessIsRefused : Obligations.SubWordAccessIsRefused := by
  intro s idx bits a rest h
  rw [step_cons h, State.perform]

theorem command_isNext (s : State) (w : Word) : ∃ t, s.command w = .next t := by
  rcases command_cases s w with ⟨i, _, hc⟩ | ⟨_, hc⟩
  · exact hc ▸ exec_isNext i s
  · exact ⟨_, hc⟩

theorem regWrite_isNext (s : State) (idx : Nat) (v : Word) : ∃ t, s.regWrite idx v = .next t := by
  rcases regWrite_cases s idx v with ⟨_, hw⟩ | ⟨_, _, hw⟩ | ⟨_, _, hw⟩
  · exact ⟨_, hw⟩
  · exact hw ▸ command_isNext s v
  · exact ⟨_, hw⟩

/-- Every action but a narrow access has a next state. -/
theorem perform_isNext_or_subWord (s : State) (x : HostAction) :
    (∃ t, s.perform x = .next t) ∨ ∃ idx bits, x = .subWord idx bits := by
  cases x with
  | read | wait | reset => exact Or.inl ⟨_, rfl⟩
  | write idx v => exact Or.inl (regWrite_isNext s idx v)
  | writeRead idx => exact Or.inl (regWrite_isNext s idx s.lastRead)
  | subWord idx bits => exact Or.inr ⟨idx, bits, rfl⟩

/-- Settles O9: an idle step and every action but a narrow access have a next state. -/
theorem onlySubWordAccessStops : Obligations.OnlySubWordAccessStops := by
  intro s
  cases hp : s.pending with
  | nil => exact Or.inl ⟨s, step_nil hp⟩
  | cons e rest =>
    obtain ⟨x, a⟩ := e
    rcases perform_isNext_or_subWord (s.issue rest a) x with ⟨t, ht⟩ | ⟨idx, bits, rfl⟩
    · exact Or.inl ⟨t, (step_cons hp).trans ht⟩
    · exact Or.inr ⟨subWordAccessIsRefused s idx bits a rest hp, idx, bits, by simp [State.nextAction, hp]⟩

end Sys2Proof.Machine

/-! ### The host's queue (20_memory.md R70) -/

namespace Sys2Proof.Machine

@[simp] theorem State.writeReg_pending (s : State) (v : Word) (r : HostReg) :
    (s.writeReg v r).pending = s.pending := by
  cases r <;> rfl

@[simp] theorem State.regRead_pending (s : State) (idx : Nat) : (s.regRead idx).pending = s.pending := by
  rcases regRead_cases s idx with ⟨_, hr⟩ | ⟨_, hr⟩ <;> simp [hr]

theorem regWrite_keeps_pending {s t : State} {idx : Nat} {v : Word} (h : s.regWrite idx v = .next t) :
    t.pending = s.pending := by
  rcases regWrite_next_cases h with ⟨_, rfl⟩ | ⟨_, _, _, _, hx⟩ | ⟨_, _, _, rfl⟩ | ⟨_, _, rfl⟩
  · rfl
  · exact (exec_frame hx).pending
  · exact State.raise_pending s .ecmd
  · exact State.writeReg_pending s v (hostReg idx)

/-- No action touches the queue once it has left it: only issuing an action takes one out. -/
theorem perform_keeps_pending {s t : State} {x : HostAction} (h : s.perform x = .next t) : t.pending = s.pending := by
  cases x with
  | read idx =>
    obtain rfl := Host.Outcome.next.inj h
    exact State.regRead_pending s idx
  | write | writeRead => exact regWrite_keeps_pending h
  | wait ms =>
    obtain rfl := Host.Outcome.next.inj h
    rfl
  | reset =>
    obtain rfl := Host.Outcome.next.inj h
    exact State.applyReset_pending s
  | subWord idx bits => simp [State.perform] at h

/-- Settles O10: issuing the action takes it from the queue, and performing it leaves the rest. -/
theorem stepConsumesOneAction : Obligations.StepConsumesOneAction := by
  intro s t h
  rcases step_next_cases h with ⟨hp, rfl⟩ | ⟨e, rest, hp, hx⟩
  · rw [hp, List.tail_nil]
  · rw [perform_keeps_pending hx, State.issue_pending, hp, List.tail_cons]

end Sys2Proof.Machine

/-! ### The index map (20_memory.md R61, R62) -/

namespace Sys2Proof.Machine

theorem hostReg_of_hostIndex {r : HostReg} {idx : Nat} (h : hostIndex r = some idx) : hostReg idx = r := by
  cases r with
  | fb k =>
    obtain rfl := Option.some.inj h
    exact hostReg_fb k
  | out k =>
    obtain rfl := Option.some.inj h
    exact hostReg_out k
  | unassigned => simp [hostIndex] at h
  | _ =>
    obtain rfl := Option.some.inj h
    rfl

theorem hostIndex_eq_none {r : HostReg} : hostIndex r = none ↔ r = .unassigned := by
  cases r <;> simp [hostIndex]

theorem hostReg_ne_unassigned_of_lt {idx : Nat} (h : idx < 16) : hostReg idx ≠ .unassigned := by
  interval_cases idx <;> decide

theorem hostReg_eq_unassigned {idx : Nat} :
    hostReg idx = .unassigned ↔ (16 ≤ idx ∧ idx ≤ 31) ∨ (57 ≤ idx ∧ idx ≤ 63) ∨ 89 ≤ idx := by
  refine ⟨fun h => ?_, hostReg_unassigned⟩
  rcases hostReg_cases idx with hlt | ⟨k, _, hk⟩ | ⟨k, _, hk⟩ | ⟨hrange, _⟩
  · exact absurd h (hostReg_ne_unassigned_of_lt hlt)
  · simp [hk] at h
  · simp [hk] at h
  · exact hrange

/-- Settles O42: both directions of the map, from one lemma per table. -/
theorem indexMapIsTheTable : Obligations.IndexMapIsTheTable := by
  refine ⟨fun _ _ => hostReg_of_hostIndex, fun _ => hostReg_eq_unassigned, ?_⟩
  rintro idx _ rfl hassigned
  cases hi : hostIndex (hostReg idx) with
  | none => exact absurd (hostIndex_eq_none.1 hi) hassigned
  | some n => rw [eq_of_hostIndex_hostReg hi]

end Sys2Proof.Machine

/-! ### What a read returns and leaves (20_memory.md R63; 60_exceptions.md R244) -/

namespace Sys2Proof.Machine

theorem readable_eq_false {r : HostReg} : r.readable = false ↔ r = .cmd ∨ r = .unassigned := by
  cases r <;> simp [HostReg.readable]

theorem readable_hostReg_eq_false {idx : Nat} :
    (hostReg idx).readable = false ↔
      idx = 0 ∨ (16 ≤ idx ∧ idx ≤ 31) ∨ (57 ≤ idx ∧ idx ≤ 63) ∨ 89 ≤ idx := by
  rw [readable_eq_false, hostReg_cmd, hostReg_eq_unassigned]

theorem readWord_of_not_readable (s : State) {r : HostReg} (h : r.readable = false) : s.readWord r = 0#32 := by
  rcases readable_eq_false.1 h with rfl | rfl <;> rfl

@[simp] theorem readWord_setLastRead (s : State) (w : Word) (r : HostReg) :
    (s.setLastRead w).readWord r = s.readWord r := by
  cases r <;> rfl

/-- CIDX is never cut: an index into the message is at most ITER (R31). -/
theorem readWord_cidx_toNat (s : State) :
    (s.readWord .cidx).toNat = s.iter.toNat / 30 % messageLength s.build.message := by
  have hle : charIndex s.build.message s.iter ≤ s.iter.toNat := (Nat.mod_le _ _).trans (Nat.div_le_self _ _)
  rw [State.readWord, BitVec.toNat_ofNat, Nat.mod_eq_of_lt (hle.trans_lt s.iter.isLt), charIndex, Config.dwell]

theorem raise_raise (s : State) (c : Cause) : (s.raise c).raise c = s.raise c := by
  have hst : statusWith (statusWith s.status c) c = statusWith s.status c := by
    rw [statusWith, statusWith, BitVec.or_assoc, BitVec.or_self]
  rw [State.raise, State.raise_status, hst]
  rfl

theorem regRead_eq (s : State) (idx : Nat) :
    s.regRead idx = { s with
      lastRead := s.readWord (hostReg idx)
      status := if s.halt = false ∧ (hostReg idx).readable = false then s.status ||| 8#4 else s.status } := by
  rcases regRead_cases s idx with ⟨hc, hr⟩ | ⟨hc, hr⟩ <;> rw [hr]
  · rw [if_neg (by rintro ⟨hh, hn⟩; simp [hh, hn] at hc)]
    rfl
  · rw [if_pos (Bool.or_eq_false_iff.1 hc)]
    rfl

theorem regRead_issue (s : State) (rest : List HostEvent) (a : SinkAnswer) (idx : Nat) :
    (s.issue rest a).regRead idx = (s.regRead idx).issue rest a := by
  have hword : (s.issue rest a).readWord (hostReg idx) = s.readWord (hostReg idx) := by cases hostReg idx <;> rfl
  rw [regRead_eq, regRead_eq, hword]
  rfl

/-- A second read finds the same word, 0 if the index may not be read, and EACC set twice is EACC. -/
theorem regRead_regRead (s : State) (idx : Nat) : (s.regRead idx).regRead idx = s.regRead idx := by
  rcases regRead_cases s idx with ⟨hc, hr⟩ | ⟨hc, hr⟩ <;> rw [hr]
  · rw [State.regRead, readWord_setLastRead]
    exact if_pos hc
  · have hzero (t : State) : t.readWord (hostReg idx) = 0#32 :=
      readWord_of_not_readable t (Bool.or_eq_false_iff.1 hc).2
    rcases regRead_cases ((s.setLastRead (s.readWord (hostReg idx))).raise .eacc) idx with ⟨_, h2⟩ | ⟨_, h2⟩ <;>
      rw [h2, hzero, hzero]
    · rfl
    · exact raise_raise (s.setLastRead 0#32) .eacc

/-- Settles O43: the read's frame, one clause per row of the table, and the second read. -/
theorem readReturnsStoredBits : Obligations.ReadReturnsStoredBits := by
  intro s idx a rest hp
  have hstep : step s = .next ((s.regRead idx).issue rest a) := by
    rw [step_cons hp, State.perform, regRead_issue]
  have hframe : (s.regRead idx).issue rest a = { s with
      pending := rest, sinkAnswer := a, lastRead := s.readWord (hostReg idx),
      status := if s.halt = false ∧ (idx = 0 ∨ (16 ≤ idx ∧ idx ≤ 31) ∨ (57 ≤ idx ∧ idx ≤ 63) ∨ 89 ≤ idx)
        then s.status ||| 8#4 else s.status } := by
    rw [regRead_eq, if_congr (and_congr_right fun _ => readable_hostReg_eq_false) rfl rfl]
    rfl
  refine ⟨s.readWord (hostReg idx), (s.regRead idx).issue rest a, hframe, hstep,
    fun h => readWord_of_not_readable s (readable_hostReg_eq_false.2 h), ?_, ?_, ?_, ?_, ?_, ?_, ?_, ?_, ?_, ?_, ?_,
    ?_, ?_, ?_, ?cidx, fun k => ⟨?fb, ?out⟩, ?again⟩
  case cidx =>
    rintro rfl
    exact readWord_cidx_toNat s
  case fb =>
    rintro rfl
    rw [hostReg_fb]
    rfl
  case out =>
    rintro rfl
    rw [hostReg_out]
    rfl
  case again =>
    rintro b rest' rfl
    rw [step_cons (State.issue_pending _ _ _), State.perform, regRead_issue, regRead_issue, regRead_regRead]
  all_goals -- indices 1 to 14: `readWord` of each register is the word, its zero extension the same number
    rintro rfl
    rfl

end Sys2Proof.Machine

/-! ### What a write does (20_memory.md R64; 60_exceptions.md R244, R246) -/

namespace Sys2Proof.Machine

theorem writeReg_of_not_writable (s : State) (v : Word) {r : HostReg} (h : r.writable = false) :
    s.writeReg v r = s.raise .eacc := by
  cases r
  case cmd | status | color | gly | cidx | unassigned | out => rfl
  all_goals cases h

/-- The indices a write may not reach: the read-only registers, OUT and the unassigned ones (R61). -/
theorem writable_hostReg_eq_false {idx : Nat}
    (h : idx = 1 ∨ idx = 6 ∨ idx = 10 ∨ (15 ≤ idx ∧ idx ≤ 31) ∨ 57 ≤ idx) : (hostReg idx).writable = false := by
  rcases hostReg_cases idx with hlt | ⟨k, hk, _⟩ | ⟨_, _, hr⟩ | ⟨_, hr⟩
  · have hidx : idx = 1 ∨ idx = 6 ∨ idx = 10 ∨ idx = 15 := by omega
    rcases hidx with rfl | rfl | rfl | rfl <;> rfl
  · omega
  · rw [hr]
    rfl
  · rw [hr]
    rfl

section
variable {s : State} {idx : Nat} {v : Word} {a : SinkAnswer} {rest : List HostEvent}
  (hp : s.pending = { action := .write idx v, answer := a } :: rest)
include hp

theorem step_write_halted (hh : s.halt = true) : step s = .next (s.issue rest a) := by
  rw [step_cons hp, State.perform, State.regWrite, halt_issue]
  exact if_pos hh

theorem step_write_cmd (hh : s.halt = false) (h0 : idx = 0) : step s = (s.issue rest a).command v := by
  rw [step_cons hp, State.perform]
  rcases regWrite_cases (s.issue rest a) idx v with ⟨hh', _⟩ | ⟨_, _, hw⟩ | ⟨_, hne, _⟩
  · simp [hh] at hh'
  · exact hw
  · exact absurd h0 hne

theorem step_write_store (hh : s.halt = false) (h0 : idx ≠ 0) :
    step s = .next ((s.issue rest a).writeReg v (hostReg idx)) := by
  rw [step_cons hp, State.perform]
  rcases regWrite_cases (s.issue rest a) idx v with ⟨hh', _⟩ | ⟨_, h0', _⟩ | ⟨_, _, hw⟩
  · simp [hh] at hh'
  · exact absurd h0' h0
  · exact hw

end

/-- Settles O44: a halted block, the command port, one clause per read-write register, FB, and every other index. -/
theorem writeStoresField : Obligations.WriteStoresField := by
  intro s idx v a rest hp
  refine ⟨step_write_halted hp, fun hh => ⟨?cmd, ?_, ?_, ?_, ?_, ?_, ?_, ?_, ?_, ?_, ?_, ?_, ?fb, ?eacc⟩⟩
  case cmd =>
    intro h0 i hd
    rw [step_write_cmd hp hh h0, State.command, hd]
  case fb =>
    rintro k rfl
    rw [step_write_store hp hh (by omega), hostReg_fb]
    rfl
  case eacc =>
    intro hidx
    rw [step_write_store hp hh (by omega), writeReg_of_not_writable _ _ (writable_hostReg_eq_false hidx)]
    rfl
  all_goals -- the read-write registers: `writeReg` of each, its `setWidth` being the low bits
    rintro rfl
    rw [step_write_store hp hh (by decide)]
    rfl

end Sys2Proof.Machine

/-! ### The command words (30_encoding.md R90 to R92, R95) -/

namespace Sys2Proof

/-- Two fields are the whole of a word (R90). -/
theorem CommandWord.zero_append_op (w : Word) : (ofWord w).zero ++ (ofWord w).op = w := by
  have h : (ofWord w).zero ++ (ofWord w).op = w.extractLsb' 0 32 :=
    BitVec.extractLsb'_append_extractLsb'_eq_extractLsb' rfl
  rw [h, BitVec.extractLsb'_eq_self]

@[simp] theorem CommandWord.ofWord_encode (i : Instr) : ofWord (encode i) = { op := opcode i, zero := 0 } := by
  have hop : (0#24 ++ opcode i).extractLsb' 0 8 = opcode i := BitVec.extractLsb'_append_eq_right
  have hzero : (0#24 ++ opcode i).extractLsb' 8 24 = 0 := BitVec.extractLsb'_append_eq_left
  exact congrArg₂ CommandWord.mk hop hzero

theorem eq_encode_iff {w : Word} {i : Instr} :
    w = encode i ↔ (CommandWord.ofWord w).zero = 0 ∧ (CommandWord.ofWord w).op = opcode i := by
  constructor
  · rintro rfl
    simp
  · rintro ⟨hzero, hop⟩
    rw [← CommandWord.zero_append_op w, hzero, hop]
    rfl

/-- The `zero` field is the quotient by 256, so it is zero for the words below 256 (R90). -/
theorem CommandWord.zero_eq_zero_iff (w : Word) : (ofWord w).zero = 0 ↔ w.toNat < 256 := by
  have hdiv : (ofWord w).zero.toNat = w.toNat / 256 % 2 ^ 24 := by
    rw [ofWord, BitVec.extractLsb'_toNat, Nat.shiftRight_eq_div_pow]
  have hw := w.isLt
  rw [← BitVec.toNat_inj, hdiv]
  show w.toNat / 256 % 2 ^ 24 = 0 ↔ w.toNat < 256
  omega

theorem decodeOp_eq_some {op : BitVec 8} {i : Instr} : decodeOp op = some i ↔ op = opcode i := by
  constructor
  · intro h
    unfold decodeOp at h
    split_ifs at h with hop hop hop hop hop hop hop hop -- one per row of R91, and the opcodes that are none
    all_goals
      obtain rfl := Option.some.inj h
      exact hop
  · rintro rfl
    cases i <;> rfl

theorem decode_of_zero_ne {w : Word} (h : (CommandWord.ofWord w).zero ≠ 0) : decode w = .error .highBitsSet :=
  if_pos h

theorem decode_of_decodeOp_some {w : Word} {i : Instr} (hzero : (CommandWord.ofWord w).zero = 0)
    (hop : decodeOp (CommandWord.ofWord w).op = some i) : decode w = .ok i := by
  rw [decode, if_neg (not_not_intro hzero), hop]

theorem decode_of_decodeOp_none {w : Word} (hzero : (CommandWord.ofWord w).zero = 0)
    (hop : decodeOp (CommandWord.ofWord w).op = none) :
    decode w = .error (.undefinedOpcode (CommandWord.ofWord w).op) := by
  rw [decode, if_neg (not_not_intro hzero), hop]

/-- The decoder accepts the command words and no other. -/
theorem decode_eq_ok {w : Word} {i : Instr} : decode w = .ok i ↔ w = encode i := by
  rw [eq_encode_iff, ← decodeOp_eq_some]
  by_cases hzero : (CommandWord.ofWord w).zero = 0
  · cases hop : decodeOp (CommandWord.ofWord w).op with
    | some j => simp [decode_of_decodeOp_some hzero hop, hzero]
    | none => simp [decode_of_decodeOp_none hzero hop]
  · exact iff_of_false (by simp [decode_of_zero_ne hzero]) fun h => hzero h.1

@[simp] theorem decode_encode (i : Instr) : decode (encode i) = .ok i := decode_eq_ok.2 rfl

@[simp] theorem decodeTableWord_encode (i : Instr) : decodeTableWord 32 (encode i).toNat = some i := by
  have hlt := (encode i).isLt
  rw [decodeTableWord, Nat.mod_eq_of_lt hlt, if_pos hlt, BitVec.ofNat_toNat, BitVec.setWidth_eq, decode_encode]
  rfl

theorem definedOpcodes_eq_map :
    definedOpcodes = [Instr.hue, .hsv, .glyph, .rendf, .rendo, .scale, .emit, .tick].map opcode := rfl

theorem CommandWord.opOk_iff (c : CommandWord) : c.opOk = true ↔ ∃ i : Instr, c.op = opcode i := by
  rw [opOk, List.contains_iff_mem, definedOpcodes_eq_map, List.mem_map]
  constructor
  · rintro ⟨i, _, h⟩
    exact ⟨i, h.symm⟩
  · rintro ⟨i, h⟩
    exact ⟨i, by cases i <;> decide, h.symm⟩

/-- The well-formed words are the command words (R92, R95). -/
theorem CommandWord.wf_ofWord_iff (w : Word) : (ofWord w).wf = true ↔ ∃ i : Instr, w = encode i := by
  simp only [wf, Bool.and_eq_true, zeroOk, beq_iff_eq, opOk_iff, eq_encode_iff, exists_and_left]

/-- Settles O2: the decoder accepts the command words only, and they are the well-formed words. -/
theorem decodeInvertsEncode : Obligations.DecodeInvertsEncode := by
  refine ⟨fun i => ⟨decode_encode i, decodeTableWord_encode i⟩, fun w i h => decode_eq_ok.1 h, fun w => ?_⟩
  rw [CommandWord.wf_ofWord_iff]
  exact exists_congr fun i => decode_eq_ok

/-- Settles O3: the high bits are tested first; below 256, a word that no opcode fits fails the second test. -/
theorem decodeRefusesByName : Obligations.DecodeRefusesByName := by
  intro w
  refine ⟨fun hhigh => ?_, fun hlow hnone => ?_⟩
  · exact decode_of_zero_ne fun h => absurd ((CommandWord.zero_eq_zero_iff w).1 h) (by omega)
  · have hzero := (CommandWord.zero_eq_zero_iff w).2 hlow
    have hop : decodeOp (CommandWord.ofWord w).op = none :=
      Option.eq_none_iff_forall_ne_some.2 fun i h => hnone i (eq_encode_iff.2 ⟨hzero, decodeOp_eq_some.1 h⟩)
    rw [decode_of_decodeOp_none hzero hop, BitVec.setWidth_eq_extractLsb' (by decide)]
    rfl

/-- Settles O1: the eight words are encodings, and the four illegal ones fail the tests by their values. -/
theorem sampleCommandWordsDecode : Obligations.SampleCommandWordsDecode := by
  refine ⟨decode_encode .hue, decode_encode .hsv, decode_encode .glyph, decode_encode .rendf, decode_encode .rendo,
    decode_encode .scale, decode_encode .emit, decode_encode .tick, ?zero, ?ones, ?low, ?top⟩
  case zero | ones => exact (decodeRefusesByName _).2 (by decide) fun i => by cases i <;> decide
  case low | top => exact (decodeRefusesByName _).1 (by decide)

end Sys2Proof

/-! ### Commands and MOV as host actions (30_encoding.md R92, R97, R98) -/

namespace Sys2Proof.Machine

/-- Settles O6: performing either action is the same `regWrite`, the queue being replaced by the rest. -/
theorem writeReadIsAWrite : Obligations.WriteReadIsAWrite := by
  intro s idx a rest hp
  rw [step_cons hp, step_cons rfl]
  rfl

section
variable {s : State} {idx : Nat} {a : SinkAnswer} {rest : List HostEvent}
  (hp : s.pending = { action := .writeRead idx, answer := a } :: rest) (hh : s.halt = false)
include hp hh

theorem step_writeRead_cmd (h0 : idx = 0) : step s = (s.issue rest a).command s.lastRead :=
  (writeReadIsAWrite s idx a rest hp).trans (step_write_cmd rfl hh h0)

theorem step_writeRead_store (h0 : idx ≠ 0) :
    step s = .next ((s.issue rest a).writeReg s.lastRead (hostReg idx)) :=
  (writeReadIsAWrite s idx a rest hp).trans (step_write_store rfl hh h0)

end

/-- Settles O4: a write to the command port runs the decoded command, and a word written back is such a write. -/
theorem stepRunsDecodedCommand : Obligations.StepRunsDecodedCommand := by
  intro s i w a rest hh hd
  refine ⟨fun hp => ?write, fun hp hw => ?writeRead⟩
  case write => rw [step_write_cmd hp hh rfl, State.command, hd]
  case writeRead => rw [step_writeRead_cmd hp hh rfl, hw, State.command, hd]

theorem step_read_readable {s : State} {idx : Nat} {a : SinkAnswer} {rest : List HostEvent}
    (hp : s.pending = { action := .read idx, answer := a } :: rest) (hr : (hostReg idx).readable = true) :
    step s = .next ((s.setLastRead (s.readWord (hostReg idx))).issue rest a) := by
  have hread : s.regRead idx = s.setLastRead (s.readWord (hostReg idx)) := if_pos (by rw [hr, Bool.or_true])
  rw [step_cons hp, State.perform, regRead_issue, hread]

/-- A run goes on from the next state of its first step. -/
theorem run_succ_of_step {s t : core.State} (h : step s = .next t) (k : Nat) : core.run (k + 1) s = core.run k t := by
  have hcore : core.step s = .next t := h
  rw [Host.Core.run, hcore]

/-- Settles O46: the read takes COLOR zero-extended, and FG keeps the low 24 bits of it, which are COLOR. -/
theorem movCopiesColorToForeground : Obligations.MovCopiesColorToForeground := by
  intro s a hh hp
  have hread : step s =
      .next ((s.setLastRead (s.color.setWidth 32)).issue [{ action := .writeRead 7, answer := a }] a) :=
    step_read_readable (idx := 6) hp rfl
  have hwrite := step_writeRead_store (State.issue_pending (s.setLastRead (s.color.setWidth 32))
    [{ action := .writeRead 7, answer := a }] a) hh (by decide)
  have hfg : (s.color.setWidth 32).setWidth 24 = s.color := by
    rw [BitVec.setWidth_setWidth_of_le _ (by decide), BitVec.setWidth_eq]
  calc Host.Core.run core 2 s
      = _ := run_succ_of_step hread 1
    _ = _ := run_succ_of_step hwrite 0
    _ = .next { s with
          fg := (s.color.setWidth 32).setWidth 24, lastRead := s.color.setWidth 32,
          pending := [], sinkAnswer := a } := rfl
    _ = _ := by rw [hfg]

end Sys2Proof.Machine

/-! ### Patterns and their fields (40_numerics.md R130, R136) -/

namespace Sys2Proof.Machine

/-- The pattern with the given sign and bits 30 to 0. -/
def patternOf (neg : Bool) (n : Nat) : F := BitVec.ofNat 32 ((if neg then 2 ^ 31 else 0) + n)

section
variable {n : Nat} (hn : n < 2 ^ 31)
include hn

theorem patternOf_toNat (neg : Bool) : (patternOf neg n).toNat = (if neg then 2 ^ 31 else 0) + n := by
  rw [patternOf, BitVec.toNat_ofNat, Nat.mod_eq_of_lt]
  split <;> omega

theorem fSign_patternOf (neg : Bool) : fSign (patternOf neg n) = neg := by
  rw [fSign_eq, patternOf_toNat hn]
  cases neg
  · simpa using hn
  · simp

theorem magBits_patternOf (neg : Bool) : magBits (patternOf neg n) = n := by
  rw [magBits, patternOf_toNat hn]
  split <;> omega

end

/-- The magnitude by the two fields of bits 30 to 0. -/
theorem magOf_fields {e f : Nat} (hf : f < 2 ^ 23) :
    magOf (e * 2 ^ 23 + f) = if e = 0 then f else (2 ^ 23 + f) * 2 ^ (e - 1) := by
  have hexp : (e * 2 ^ 23 + f) / 2 ^ 23 = e := by omega
  have hfrac : (e * 2 ^ 23 + f) % 2 ^ 23 = f := by omega
  rw [magOf, hexp, hfrac]
  split
  · omega
  · rfl

/-- Settles O20: the sign, exponent and fraction of the pattern are those it was made of. -/
theorem patternValues : Obligations.PatternValues := by
  intro neg e f he hf
  have hn : e * 2 ^ 23 + f < 2 ^ 31 := by omega
  have hx : BitVec.ofNat 32 ((if neg then 2 ^ 31 else 0) + e * 2 ^ 23 + f) = patternOf neg (e * 2 ^ 23 + f) := by
    rw [patternOf, Nat.add_assoc]
  rw [hx]
  have hbits := magBits_patternOf hn neg
  refine ⟨fSign_patternOf hn neg, fun hlt => ?finite, fun htop => ?special⟩
  case finite =>
    have hfin : isFinite (patternOf neg (e * 2 ^ 23 + f)) = true := by rw [isFinite_iff, hbits]; omega
    refine ⟨hfin, isNaN_of_finite hfin, isInf_of_finite hfin, ?_⟩
    rw [fVal, fSign_patternOf hn, fMag_eq, hbits, magOf_fields hf]
    push_cast
    cases neg
    · exact (one_mul _).symm
    · exact (neg_one_mul _).symm
  case special =>
    rw [Bool.eq_false_iff, Ne, isFinite_iff, isInf_iff, isNaN_iff, hbits]
    omega

/-- A limit of a domain, as a bound on the pattern: below the sign bit patterns are ordered as their magnitudes, and
the one pattern above it is -0.0. -/
theorem within_iff_toNat_le {x : F} {n : Nat} (hn : n < 0x7F800000) :
    (isFinite x = true ∧ magBits x ≤ n ∧ (fSign x = true → magBits x = 0)) ↔ x.toNat ≤ n ∨ x = 0x80000000#32 := by
  have hx : x.toNat < 2 ^ 32 := x.isLt
  rw [isFinite_iff, fSign_eq, decide_eq_true_iff, ← BitVec.toNat_inj, show (0x80000000#32).toNat = 2 ^ 31 from rfl,
    magBits]
  omega

/-- Settles O25: each domain is a bound on the magnitude, that of 1.0 or 360.0, with no sign but that of a zero. -/
theorem domainsAsPatterns : Obligations.DomainsAsPatterns := by
  intro x
  constructor
  · rw [in01_iff, ← fMag_f1, fMag_le_fMag, fMag_eq_zero]
    exact within_iff_toNat_le (by decide)
  · rw [inhue_iff, ← fMag_f360, fMag_le_fMag, fMag_eq_zero]
    exact within_iff_toNat_le (by decide)

/-! ### Comparisons and truncation (40_numerics.md R135, R137) -/

/-- Settles O24: the tests for a NaN come first, and the zeros have one magnitude. -/
theorem comparisonsAreOfValues : Obligations.ComparisonsAreOfValues := by
  intro a b
  refine ⟨fun hnan => ?nan, fun ha hb => ⟨flt_iff ha hb, fle_iff ha hb, fgt_iff ha hb⟩, by decide⟩
  case nan =>
    rcases hnan with h | h <;> simp [flt, fle, fgt, h]

theorem fVal_neg_iff {x : F} : fVal x < 0 ↔ fSign x = true ∧ fMag x ≠ 0 := by
  unfold fVal
  cases fSign x
  · simp
  · simp [Nat.pos_iff_ne_zero]

section
variable {y : F}

theorem truncU8_of_nan (hn : isNaN y = true) : truncU8 y = 0#8 := if_pos hn

theorem truncU8_of_neg (hn : isNaN y = false) (hneg : fSign y = true) : truncU8 y = 0#8 := by
  unfold truncU8
  by_cases h0 : fMag y = 0
  · simp [hn, fVal_neg_iff, h0]
  · rw [if_neg (by simp [hn]), if_pos (fVal_neg_iff.2 ⟨hneg, h0⟩)]

theorem truncU8_of_ge (hn : isNaN y = false) (hpos : fSign y = false) (hge : 256 * 2 ^ 149 ≤ fMag y) :
    truncU8 y = 255#8 := by
  rw [truncU8, if_neg (by simp [hn]), if_neg (by simp [fVal_neg_iff, hpos]), if_pos hge]

theorem truncU8_toNat (hn : isNaN y = false) (hpos : fSign y = false) (hlt : fMag y < 256 * 2 ^ 149) :
    (truncU8 y).toNat = fMag y / 2 ^ 149 := by
  rw [truncU8, if_neg (by simp [hn]), if_neg (by simp [fVal_neg_iff, hpos]), if_neg (not_le.2 hlt), BitVec.toNat_ofNat,
    Nat.mod_eq_of_lt ((Nat.div_lt_iff_lt_mul (by positivity)).2 hlt)]

end

/-- Settles O26: one lemma per case, the floor being the quotient by the 2^149 units of 1.0. -/
theorem truncationIsFloor : Obligations.TruncationIsFloor := by
  refine fun y => ⟨fun hfin hpos hlt => ?floor, truncU8_of_neg, truncU8_of_ge, truncU8_of_nan⟩
  case floor =>
    rw [truncU8_toNat (isNaN_of_finite hfin) hpos hlt]
    exact ⟨Nat.div_mul_le_self _ _, (Nat.div_lt_iff_lt_mul (by positivity)).1 (Nat.lt_succ_self _)⟩

/-! ### The scaled channel (40_numerics.md R145) -/

theorem byte_mul_le (a b : Byte) : a.toNat * b.toNat ≤ 255 * 255 :=
  Nat.mul_le_mul (Nat.le_of_lt_succ a.isLt) (Nat.le_of_lt_succ b.isLt)

theorem scaleCh_toNat (a b : Byte) : (scaleCh a b).toNat = a.toNat * b.toNat / 256 := by
  have hprod := byte_mul_le a b
  rw [scaleCh, BitVec.toNat_ofNat, Nat.mod_eq_of_lt (by omega)]

/-- Settles O35: the product of two bytes fits 16 bits, and its quotient by 256 is the high byte. -/
theorem scaleChannelIsHighByte : Obligations.ScaleChannelIsHighByte := by
  intro a b
  have ha := a.isLt
  have hb := b.isLt
  have hprod := byte_mul_le a b
  constructor
  · apply BitVec.eq_of_toNat_eq
    rw [scaleCh_toNat, BitVec.extractLsb'_toNat, BitVec.toNat_mul, BitVec.toNat_setWidth, BitVec.toNat_setWidth,
      Nat.mod_eq_of_lt (a := a.toNat) (by omega), Nat.mod_eq_of_lt (a := b.toNat) (by omega),
      Nat.mod_eq_of_lt (a := a.toNat * b.toNat) (by omega), Nat.shiftRight_eq_div_pow]
    omega
  · rw [scaleCh_toNat]
    omega

end Sys2Proof.Machine

/-! ### Rounding is to nearest, ties to even (40_numerics.md R131) -/

namespace Sys2Proof.Machine

/-- `den` times the distance of the magnitude `mag` from the exact `num / den`. -/
def roundError (num den mag : Nat) : Nat := ((mag * den : Nat) - (num : Int)).natAbs

theorem roundError_mul (num den j c : Nat) : roundError num den (j * c) = roundError num (den * c) j := by
  rw [roundError, roundError, mul_assoc, mul_comm c den]

/-- The multiples of `den` next to `num` are `q` and `q + 1` times it, `q` the quotient; any other is further by a
whole `den`. -/
theorem multiple_cases (q den j : Nat) :
    (j = q ∧ j * den = q * den) ∨ (j = q + 1 ∧ j * den = q * den + den) ∨
      (j < q ∧ j * den + den ≤ q * den) ∨ (q + 1 < j ∧ q * den + 2 * den ≤ j * den) := by
  rcases lt_trichotomy j q with h | rfl | h
  · exact Or.inr (Or.inr (Or.inl ⟨h, by simpa only [Nat.succ_mul] using Nat.mul_le_mul_right den h⟩))
  · exact Or.inl ⟨rfl, rfl⟩
  · rcases (show q + 1 ≤ j from h).eq_or_lt with rfl | h2
    · exact Or.inr (Or.inl ⟨rfl, Nat.succ_mul q den⟩)
    · have hle : (q + 2) * den ≤ j * den := Nat.mul_le_mul_right den h2
      exact Or.inr (Or.inr (Or.inr ⟨h2, by rwa [Nat.add_mul] at hle⟩))

/-- No integer is nearer to the quotient than `rneDiv`, and where another one is equally near `rneDiv` is even. -/
theorem rneDiv_nearest {num den : Nat} (hd : 0 < den) (j : Nat) :
    roundError num den (rneDiv num den) ≤ roundError num den j ∧
      (roundError num den (rneDiv num den) = roundError num den j → j ≠ rneDiv num den → rneDiv num den % 2 = 0) := by
  have hdm := Nat.div_add_mod' num den
  have hlt := Nat.mod_lt num hd
  have hj := multiple_cases (num / den) den j
  unfold rneDiv roundError
  split
  · rw [Nat.succ_mul]
    omega
  · omega

/-- The rounded magnitude is the nearest representable one. A competitor below the significand's binade is no multiple
of its unit, but the least number of the binade lies between it and the exact value. -/
theorem roundBits_nearest {num den : Nat} (hd : 0 < den) (n : Nat) :
    roundError num den (magOf (roundBits num den)) ≤ roundError num den (magOf n) ∧
      (roundError num den (magOf (roundBits num den)) = roundError num den (magOf n) →
        magOf n ≠ magOf (roundBits num den) → roundBits num den % 2 = 0) := by
  have hmag := magOf_roundBits (num := num) hd
  have hnear := rneDiv_nearest (num := num) (den := den * 2 ^ roundShift num den) (by positivity)
  obtain ⟨-, hshift⟩ := roundShift_spec (num := num) (den := den)
  have hparity : roundBits num den % 2 = rneDiv num (den * 2 ^ roundShift num den) % 2 := by
    rw [roundBits]
    omega
  rw [hmag, hparity]
  generalize rneDiv num (den * 2 ^ roundShift num den) = m at hnear
  generalize roundShift num den = k at hnear hshift
  rw [roundError_mul]
  by_cases hdvd : 2 ^ k ∣ magOf n
  · obtain ⟨j, hj⟩ := hdvd
    rw [hj, mul_comm (2 ^ k) j, roundError_mul]
    exact ⟨(hnear j).1, fun htie hne => (hnear j).2 htie fun h => hne (by rw [h])⟩
  · have hk : k ≠ 0 := fun h => hdvd (by simp [h])
    have hbelow : magOf n < 2 ^ 23 * 2 ^ k := by
      rw [← pow_add, Nat.add_comm]
      exact not_le.1 fun h => hdvd (dvd_magOf h)
    have hexact : 2 ^ 23 * 2 ^ k * den ≤ num := by
      rw [← pow_add, Nat.add_comm]
      exact (Nat.le_div_iff_mul_le hd).1 (hshift.resolve_left hk)
    have hfar : roundError num den (2 ^ 23 * 2 ^ k) < roundError num den (magOf n) := by
      have := Nat.mul_lt_mul_of_pos_right hbelow hd
      unfold roundError
      omega
    have hlt : roundError num (den * 2 ^ k) m < roundError num den (magOf n) :=
      ((hnear (2 ^ 23)).1.trans_eq (roundError_mul _ _ _ _).symm).trans_lt hfar
    exact ⟨hlt.le, fun htie => absurd htie hlt.ne⟩

theorem magBits_roundMag_of_finite {neg : Bool} {num den : Nat} (h : isFinite (roundMag neg num den) = true) :
    magBits (roundMag neg num den) = roundBits num den := by
  rw [isFinite_iff] at h
  rw [magBits_roundMag] at h ⊢
  omega

/-- Settles O21: the bits of a finite result are `roundBits`, whose parity is that of the fraction. -/
theorem roundingIsNearestTiesToEven : Obligations.RoundingIsNearestTiesToEven := by
  intro neg num den y hd hr _
  obtain ⟨hnear, htie⟩ := roundBits_nearest (num := num) hd (magBits y)
  rw [← magBits_roundMag_of_finite hr, ← fMag_eq, ← fMag_eq] at hnear htie
  refine ⟨fSign_roundMag _ _ _, hnear, fun heq hne => ?_⟩
  rw [fFrac_eq]
  have := htie heq hne
  omega

/-! ### The primitives round once (40_numerics.md R132) -/

theorem roundSum_of_ne_zero (negZero : Bool) {v : Int} (h : v ≠ 0) :
    roundSum negZero v = roundMag (decide (v < 0)) v.natAbs 1 := if_neg h

/-- Settles O22: finite operands leave each primitive its rounding, and `x - x` adds two unlike signs, so its zero is
positive. -/
theorem primitivesRoundOnce : Obligations.PrimitivesRoundOnce := by
  intro a b ha hb
  refine ⟨fun h => ?_, fun h => ?_, fmul_eq ha hb, fdiv_eq ha hb, ?_, by decide⟩
  · rw [fadd_eq ha hb, roundSum_of_ne_zero _ h]
  · rw [fsub_eq ha hb, roundSum_of_ne_zero _ h]
  · rw [fsub_eq ha ha, Bool.and_not_self, sub_self, roundSum, if_pos rfl, roundMag_zero _ Nat.one_pos]
    rfl

/-! ### The remainder is exact (40_numerics.md R133) -/

/-- A significand of at most 24 bits is representable at every shift. -/
theorem exists_magOf_eq {s : Nat} (hs : s ≤ 2 ^ 24) (k : Nat) : ∃ n, magOf n = s * 2 ^ k := by
  induction k generalizing s with
  | zero => exact ⟨0 * 2 ^ 23 + s, magOf_encode (Or.inl ⟨rfl, hs⟩)⟩
  | succ k ih =>
    rcases Nat.lt_or_ge s (2 ^ 23) with hlt | hge
    · obtain ⟨n, hn⟩ := ih (s := s * 2) (by omega)
      exact ⟨n, by rw [hn, pow_succ', mul_assoc]⟩
    · exact ⟨(k + 1) * 2 ^ 23 + s, magOf_encode (Or.inr ⟨hge, hs⟩)⟩

theorem magOf_eq_significand (n : Nat) : ∃ s k, s ≤ 2 ^ 24 ∧ magOf n = s * 2 ^ k := by
  unfold magOf
  split
  · exact ⟨n, 0, by omega, (mul_one n).symm⟩
  · exact ⟨_, _, by omega, rfl⟩

/-- The remainder of a representable magnitude by a power of two is representable: it keeps low bits of the
significand. -/
theorem exists_magOf_eq_mod (n p : Nat) : ∃ j, magOf j = magOf n % 2 ^ p := by
  obtain ⟨s, k, hs, hn⟩ := magOf_eq_significand n
  rw [hn]
  rcases Nat.le_total p k with hpk | hkp
  · have hzero : s * 2 ^ k % 2 ^ p = 0 := Nat.mod_eq_zero_of_dvd (Dvd.dvd.mul_left (Nat.pow_dvd_pow 2 hpk) s)
    exact ⟨0, by rw [hzero]; rfl⟩
  · have hlow : s * 2 ^ k % 2 ^ p = s % 2 ^ (p - k) * 2 ^ k := by
      rw [← Nat.mul_mod_mul_right, ← pow_add, Nat.sub_add_cancel hkp]
    rw [hlow]
    exact exists_magOf_eq ((Nat.mod_le _ _).trans hs) k

/-- A representable magnitude up to that of a finite number rounds to itself. -/
theorem fMag_roundMag_of_magOf (neg : Bool) {n : Nat} {y : F} (hy : isFinite y = true) (hle : magOf n ≤ fMag y) :
    fMag (roundMag neg (magOf n) 1) = magOf n := by
  have hbits : roundBits (magOf n) 1 = n := by simpa using roundBits_exact (n := n) Nat.one_pos
  have hfin := isFinite_roundMag_of_le (neg := neg) (num := magOf n) Nat.one_pos hy (by rwa [mul_one])
  rw [fMag_eq, magBits_roundMag_of_finite hfin, hbits]

section
variable {q : F} (hq : isFinite q = true)
include hq

theorem fSign_frem2 : fSign (frem2 q) = fSign q := by rw [frem2_eq hq, fSign_roundMag]

theorem isFinite_frem2 : isFinite (frem2 q) = true := by
  rw [frem2_eq hq]
  exact isFinite_roundMag_of_le Nat.one_pos hq (by rw [mul_one]; exact Nat.mod_le _ _)

theorem fMag_frem2 : fMag (frem2 q) = fMag q % 2 ^ 150 := by
  obtain ⟨j, hj⟩ := exists_magOf_eq_mod (magBits q) 150
  rw [← fMag_eq] at hj
  rw [frem2_eq hq, ← hj]
  exact fMag_roundMag_of_magOf _ hq (hj ▸ Nat.mod_le _ _)

theorem fVal_frem2 : fVal (frem2 q) = (fVal q).tmod (2 ^ 150) := by
  have hcast : ((fMag q % 2 ^ 150 : Nat) : Int) = (fMag q : Int).tmod (2 ^ 150) := Int.ofNat_tmod _ _
  rw [fVal, fVal, fSign_frem2 hq, fMag_frem2 hq, hcast]
  cases fSign q
  · rfl
  · exact (Int.neg_tmod _ _).symm

end

theorem fVal_of_pos {x : F} (h : fSign x = false) : fVal x = fMag x := by rw [fVal, h]; rfl

/-- Settles O23: sign, magnitude and finiteness of the remainder, and 2.0 is 2^150 units. -/
theorem remainderIsExact : Obligations.RemainderIsExact := by
  intro q hq
  refine ⟨fVal_frem2 hq, fSign_frem2 hq, isFinite_frem2 hq, fun hpos => ?_⟩
  have hn := isNaN_of_finite (isFinite_frem2 hq)
  have htwo : fVal 0x40000000#32 = ((2 ^ 150 : Nat) : Int) := by decide +kernel
  have hlt : fMag q % 2 ^ 150 < 2 ^ 150 := Nat.mod_lt _ (by positivity)
  rw [fle_iff (by decide) hn, flt_iff hn (by decide), htwo, fVal_of_pos ((fSign_frem2 hq).trans hpos), fMag_frem2 hq]
  exact ⟨Int.natCast_nonneg _, Int.ofNat_lt.2 hlt⟩

end Sys2Proof.Machine

/-! ### The sine unit (40_numerics.md R141) -/

namespace Sys2Proof.Machine

/-- SIN_RANGE (R141): a value outside the range is replaced by +0.0. -/
theorem sine_range (b : Build) {a : F} (ha : isFinite a = true) :
    isFinite (sine b a) = true ∧ fle fNeg1 (sine b a) = true ∧ fle (sine b a) f1 = true := by
  have hzero : isFinite f0 = true ∧ fle fNeg1 f0 = true ∧ fle f0 f1 = true := by decide +kernel
  unfold sine
  dsimp only
  split
  · exact hzero
  · split
    · exact hzero
    · next hkeep => simpa [ha, and_assoc] using hkeep

/-- SIN_ZERO (R141). -/
theorem sine_zero (b : Build) : sine b f0 = f0 := by simp [sine]

/-- Settles O19: the two tests of the unit give the two properties. -/
theorem sineHasItsProperties : Obligations.SineHasItsProperties :=
  fun b _ => ⟨sine_range b, sine_zero b⟩

/-! ### Numbers from 0 up to a bound (40_numerics.md R136, R144) -/

/-- A finite number from 0 to `m` units of 2^-149, -0.0 included. -/
structure Within (m : Nat) (x : F) : Prop where
  finite : isFinite x = true
  le : fMag x ≤ m
  sign : fSign x = true → fMag x = 0

theorem within_iff {m : Nat} {x : F} :
    Within m x ↔ isFinite x = true ∧ fMag x ≤ m ∧ (fSign x = true → fMag x = 0) :=
  ⟨fun ⟨hf, hle, hs⟩ => ⟨hf, hle, hs⟩, fun ⟨hf, hle, hs⟩ => ⟨hf, hle, hs⟩⟩

theorem in01_iff_within {x : F} : in01 x = true ↔ Within (2 ^ 149) x := in01_iff.trans within_iff.symm

theorem inhue_iff_within {x : F} : inhue x = true ↔ Within (360 * 2 ^ 149) x := inhue_iff.trans within_iff.symm

theorem Within.of_pos {x : F} (hf : isFinite x = true) (hs : fSign x = false) : Within (fMag x) x :=
  ⟨hf, le_rfl, by simp [hs]⟩

section
variable {m n : Nat} {x a b y : F}

theorem Within.self (h : Within m x) : Within (fMag x) x := ⟨h.finite, le_rfl, h.sign⟩

theorem Within.mono (h : Within m x) (hmn : m ≤ n) : Within n x := ⟨h.finite, h.le.trans hmn, h.sign⟩

theorem Within.fVal_eq (h : Within m x) : fVal x = fMag x := fVal_eq_fMag h.sign

/-! ### Roundings that stay in bounds (40_numerics.md R131, R144) -/

theorem magBits_roundSum (negZero : Bool) (v : Int) :
    magBits (roundSum negZero v) = min (roundBits v.natAbs 1) 0x7F800000 := by
  unfold roundSum
  split
  · next h => rw [h, magBits_roundMag, Int.natAbs_zero]
  · rw [magBits_roundMag]

theorem fMag_roundSum (negZero : Bool) (v : Int) :
    fMag (roundSum negZero v) = fMag (roundMag false v.natAbs 1) := by
  rw [fMag_eq, fMag_eq, magBits_roundSum, magBits_roundMag]

theorem fSign_roundSum_of_nonneg {negZero : Bool} {v : Int} (h0 : 0 ≤ v) :
    fSign (roundSum negZero v) = (negZero && decide (v = 0)) := by
  unfold roundSum
  split
  · next h => simp [fSign_roundMag, h]
  · next h => simp [fSign_roundMag, h, h0]

theorem roundBits_le_of_le_fMag {num : Nat} (h : num ≤ fMag y) : roundBits num 1 ≤ magBits y :=
  roundBits_le Nat.one_pos (by rwa [mul_one, ← fMag_eq])

section
variable (hy : isFinite y = true)
include hy

theorem isFinite_of_magBits_le (h : magBits x ≤ magBits y) : isFinite x = true := by
  rw [isFinite_iff] at hy ⊢
  omega

/-- A rounded magnitude stays below any number whose bits its own do not pass. -/
theorem within_roundMag {neg : Bool} {num den : Nat} (hd : 0 < den) (hbits : roundBits num den ≤ magBits y)
    (hneg : neg = true → num = 0) : Within (fMag y) (roundMag neg num den) := by
  have hle : magBits (roundMag neg num den) ≤ magBits y := by
    rw [magBits_roundMag]
    exact (min_le_left _ _).trans hbits
  refine ⟨isFinite_of_magBits_le hy hle, fMag_le_fMag.2 hle, fun hs => ?_⟩
  rw [hneg (by rwa [fSign_roundMag] at hs), fMag_roundMag_zero neg hd]

theorem within_roundSum {negZero : Bool} {v : Int} (h0 : 0 ≤ v) (hbits : roundBits v.natAbs 1 ≤ magBits y) :
    Within (fMag y) (roundSum negZero v) := by
  unfold roundSum
  split
  · next h => exact within_roundMag hy Nat.one_pos (by simpa [h] using hbits) fun _ => rfl
  · exact within_roundMag hy Nat.one_pos hbits fun hneg => absurd (of_decide_eq_true hneg) (not_lt.2 h0)

theorem within_fabs_roundSum {negZero : Bool} {v : Int} (hv : v.natAbs ≤ fMag y) :
    Within (fMag y) (fabs (roundSum negZero v)) := by
  have hle : magBits (roundSum negZero v) ≤ magBits y := by
    rw [magBits_roundSum]
    exact (min_le_left _ _).trans (roundBits_le_of_le_fMag hv)
  exact ⟨(isFinite_fabs _).trans (isFinite_of_magBits_le hy hle), (fMag_fabs _).trans_le (fMag_le_fMag.2 hle), by simp⟩

theorem Within.fmul (ha : Within m a) (hb : Within n b) (h : m * n ≤ fMag y * 2 ^ 149) :
    Within (fMag y) (fmul a b) := by
  rw [fmul_eq ha.finite hb.finite]
  refine within_roundMag hy (by positivity) (roundBits_le (by positivity) ?_) fun hs => ?_
  · rw [← fMag_eq]
    exact (Nat.mul_le_mul ha.le hb.le).trans h
  · cases hsa : fSign a
    · rw [hb.sign (by simpa [hsa] using hs), mul_zero]
    · rw [ha.sign hsa, zero_mul]

theorem Within.fdiv (ha : Within m a) (hb : Within n b) (hb0 : fMag b ≠ 0) (h : m * 2 ^ 149 ≤ fMag y * fMag b) :
    Within (fMag y) (fdiv a b) := by
  rw [fdiv_eq ha.finite hb.finite hb0]
  refine within_roundMag hy (Nat.pos_of_ne_zero hb0) (roundBits_le (Nat.pos_of_ne_zero hb0) ?_) fun hs => ?_
  · rw [← fMag_eq]
    exact (Nat.mul_le_mul_right _ ha.le).trans h
  · cases hsb : fSign b
    · rw [ha.sign (by simpa [hsb] using hs), zero_mul]
    · exact absurd (hb.sign hsb) hb0

end

/-- A difference of two numbers from 0 up is no more than the greater one. -/
theorem Within.fsub (ha : Within m a) (hb : Within n b) (hle : fMag b ≤ fMag a) : Within (fMag a) (fsub a b) := by
  rw [fsub_eq ha.finite hb.finite, ha.fVal_eq, hb.fVal_eq]
  exact within_roundSum ha.finite (by omega) (roundBits_le_of_le_fMag (by omega))

theorem Within.frem2 (h : Within m x) : Within (2 ^ 150) (frem2 x) := by
  refine ⟨isFinite_frem2 h.finite, ?_, fun hs => ?_⟩
  · rw [fMag_frem2 h.finite]
    exact (Nat.mod_lt _ (by positivity)).le
  · rw [fMag_frem2 h.finite, h.sign (by rwa [fSign_frem2 h.finite] at hs), Nat.zero_mod]

end

/-! ### The hue of a time (42_color.md R181; 40_numerics.md R144) -/

theorem within_f1 : Within (2 ^ 149) f1 := in01_iff_within.1 (by decide +kernel)

theorem within_fHalf : Within (2 ^ 148) fHalf := ⟨by decide, by decide +kernel, by decide⟩

theorem within_f360 : Within (360 * 2 ^ 149) f360 := inhue_iff_within.1 (by decide +kernel)

theorem fVal_f1 : fVal f1 = 2 ^ 149 := by decide +kernel

theorem fSign_fmul {a b : F} (ha : isFinite a = true) (hb : isFinite b = true) :
    fSign (fmul a b) = (fSign a != fSign b) := by
  rw [fmul_eq ha hb, fSign_roundMag]

theorem isFinite_twoPi_fmul {t : F} (ht : in01 t = true) : isFinite (fmul Config.twoPi t) = true :=
  (Within.fmul (by decide) (Within.of_pos (by decide) (by decide)) (in01_iff_within.1 ht) le_rfl).finite

/-- A number in [-1, 1] plus 1.0 is in [0, 2], with a clear sign. -/
theorem fadd_f1_within {s : F} (hf : isFinite s = true) (hlo : fle fNeg1 s = true) (hhi : fle s f1 = true) :
    Within (2 ^ 150) (fadd s f1) ∧ fSign (fadd s f1) = false := by
  have hn := isNaN_of_finite hf
  have hneg1 : fVal fNeg1 = -2 ^ 149 := by decide +kernel
  have htwo : fMag 0x40000000#32 = 2 ^ 150 := by decide +kernel
  rw [fle_iff (by decide) hn, hneg1] at hlo
  rw [fle_iff hn (by decide), fVal_f1] at hhi
  rw [fadd_eq hf (by decide), fVal_f1]
  have h0 : 0 ≤ fVal s + 2 ^ 149 := by omega
  constructor
  · rw [← htwo]
    exact within_roundSum (by decide) h0 (roundBits_le_of_le_fMag (by omega))
  · rw [fSign_roundSum_of_nonneg h0]
    simp [show fSign f1 = false from rfl]

/-- Settles O17: each operation of `hueOf` keeps the range of the last, from SIN_RANGE on, and the signs stay clear. -/
theorem hueOfTimeIsInRange : Obligations.HueOfTimeIsInRange := by
  intro b t ht
  obtain ⟨hsf, hlo, hhi⟩ := sine_range b (isFinite_twoPi_fmul ht)
  obtain ⟨hsum, hsumPos⟩ := fadd_f1_within hsf hlo hhi
  have hhalf := Within.fmul (y := f1) (by decide) hsum within_fHalf (by rw [fMag_f1]; norm_num)
  have hhue := Within.fmul (y := f360) (by decide) within_f360 hhalf (by rw [fMag_f360, fMag_f1])
  rw [fMag_f360] at hhue
  refine ⟨inhue_iff_within.2 hhue, fun hz => ?_⟩
  have hsign : fSign (hueOf b t) = false := by
    rw [hueOf, fSign_fmul within_f360.finite hhalf.finite, fSign_fmul hsum.finite within_fHalf.finite, hsumPos]
    rfl
  rw [hz] at hsign
  exact absurd hsign (by decide)

/-! ### The channels of a colour (42_color.md R182, R184; 40_numerics.md R144) -/

/-- A magnitude of up to `2^(k+24)` is rounded up by at most half of `2^k`. -/
theorem fMag_roundMag_error {neg : Bool} {num k : Nat} (h : num ≤ 2 ^ (k + 24)) :
    2 * fMag (roundMag neg num 1) ≤ 2 * num + 2 ^ k := by
  have hle : fMag (roundMag neg num 1) ≤ magOf (roundBits num 1) := by
    rw [fMag_eq, magBits_roundMag, magOf_le_iff]
    exact min_le_left _ _
  rcases h.eq_or_lt with heq | hlt
  · obtain ⟨n, hn⟩ := exists_magOf_eq (s := 1) (by norm_num) (k + 24)
    rw [one_mul, ← heq] at hn
    have hexact := roundBits_exact (n := n) Nat.one_pos
    rw [mul_one, hn] at hexact
    rw [hexact, hn] at hle
    exact (Nat.mul_le_mul_left 2 hle).trans (Nat.le_add_right _ _)
  · obtain ⟨-, hshift⟩ := roundShift_spec (num := num) (den := 1)
    rw [Nat.div_one] at hshift
    have hk : roundShift num 1 ≤ k := by
      rcases hshift with h0 | hge
      · omega
      · have := (Nat.pow_lt_pow_iff_right Nat.one_lt_two).1 (hge.trans_lt hlt)
        omega
    have hunit : 2 ^ roundShift num 1 ≤ 2 ^ k := Nat.pow_le_pow_right Nat.two_pos hk
    have herr := (rneDiv_error (num := num) (den := 1 * 2 ^ roundShift num 1) (by positivity)).1
    rw [magOf_roundBits Nat.one_pos] at hle
    rw [one_mul] at herr hle
    omega

/-- A quarter of a unit in the last place above 1.0 is rounded away. -/
theorem roundBits_le_f1 {num : Nat} (h : num ≤ 2 ^ 149 + 2 ^ 124) : roundBits num 1 ≤ magBits f1 := by
  by_contra hgt
  have hnext : magOf (magBits f1 + 1) = 2 ^ 149 + 2 ^ 126 := by decide +kernel
  have hM : magOf (magBits f1 + 1) ≤ magOf (roundBits num 1) := magOf_le_iff.2 (by omega)
  have hnear := (roundBits_nearest (num := num) Nat.one_pos (magBits f1)).1
  rw [← fMag_eq, fMag_f1] at hnear
  unfold roundError at hnear
  omega

section
variable {m : Nat} {h c u val : F}

/-- The weight `1 - |((h / 60) mod 2) - 1|` is in [0, 1], so `x` is at most `c` (R182). -/
theorem within_secondary (hh : inhue h = true) (hc : Within m c) : Within (fMag c) (secondary h c) := by
  have h60 : fMag f60 = 60 * 2 ^ 149 := by decide +kernel
  have hh := (inhue_iff_within.1 hh).self
  have hq := hh.fdiv hh.finite (Within.of_pos (x := f60) (by decide) (by decide)) (by rw [h60]; norm_num)
    (Nat.mul_le_mul_left _ (by rw [h60]; norm_num))
  have hr := hq.frem2
  have hd : Within (fMag f1) (fabs (fsub (frem2 (fdiv h f60)) f1)) := by
    rw [fsub_eq hr.finite (by decide), hr.fVal_eq, fVal_f1]
    have := hr.le
    exact within_fabs_roundSum (by decide) (by rw [fMag_f1]; omega)
  have hw := within_f1.fsub hd hd.le
  exact Within.fmul hc.finite hc.self hw (by rw [fMag_f1])

/-- What holds of `c`, `x` and 0 holds of each component the band picks (R183). -/
theorem band_of_parts {p : F → Prop} (hue : F) (hc : p c) (hu : p u) (h0 : p f0) :
    p (band hue c u).1 ∧ p (band hue c u).2.1 ∧ p (band hue c u).2.2 := by
  unfold band
  split_ifs <;> exact ⟨by assumption, by assumption, by assumption⟩

/-- A part of `c` added to `val - c` is in [0, 1]: the difference errs by less than the sum's rounding takes off. -/
theorem in01_fadd_fsub (hval : in01 val = true) (hc : Within (fMag val) c) (hu : Within (fMag c) u) :
    in01 (fadd u (fsub val c)) = true := by
  have hv := in01_iff_within.1 hval
  have hm := hv.fsub hc hc.le
  have hule := hu.le
  have hcle := hc.le
  have hvle := hv.le
  have herr : 2 * fMag (fsub val c) ≤ 2 * (fMag val - fMag c) + 2 ^ 125 := by
    have hnum : ((fMag val : Int) - fMag c).natAbs = fMag val - fMag c := by omega
    rw [fsub_eq hv.finite hc.finite, hv.fVal_eq, hc.fVal_eq, fMag_roundSum, hnum]
    exact fMag_roundMag_error (k := 125) (by omega)
  rw [in01_iff_within, fadd_eq hu.finite hm.finite, hu.fVal_eq, hm.fVal_eq, ← fMag_f1]
  exact within_roundSum (by decide) (by omega) (roundBits_le_f1 (by omega))

theorem within_fmul_f255 (hu : in01 u = true) : Within (fMag f255) (fmul u f255) :=
  (in01_iff_within.1 hu).fmul (by decide) (Within.of_pos (by decide) (by decide)) (Nat.mul_comm _ _).le

end

theorem Within.fle_f0 {m : Nat} {x : F} (h : Within m x) : fle f0 x = true := by
  rw [fle_iff (by decide) (isNaN_of_finite h.finite), h.fVal_eq]
  exact Int.natCast_nonneg _

theorem Within.fle_of_pos {x y : F} (h : Within (fMag y) x) (hy : isFinite y = true) (hs : fSign y = false) :
    fle x y = true := by
  rw [fle_iff (isNaN_of_finite h.finite) (isNaN_of_finite hy), h.fVal_eq, (Within.of_pos hy hs).fVal_eq]
  exact Int.ofNat_le.2 h.le

/-- Settles O18: each channel is `val - c` and one of `c`, `x` and 0, a part of `c` whatever the band. -/
theorem channelsStayInUnitInterval : Obligations.ChannelsStayInUnitInterval := by
  intro h sat val hh hsat hval
  have hv := in01_iff_within.1 hval
  have hc : Within (fMag val) (chroma sat val) := hv.self.fmul hv.finite (in01_iff_within.1 hsat) le_rfl
  have hx := within_secondary hh hc
  have hzero : Within (fMag (chroma sat val)) f0 := ⟨by decide, Nat.zero_le _, by decide⟩
  obtain ⟨hr, hg, hb⟩ := band_of_parts h hc.self hx hzero
  have hin : ∀ ch ∈ [(hsv2rgbF h sat val).1, (hsv2rgbF h sat val).2.1, (hsv2rgbF h sat val).2.2], in01 ch = true := by
    simp only [List.forall_mem_cons, List.not_mem_nil, false_imp_iff, implies_true, and_true]
    exact ⟨in01_fadd_fsub hval hc hr, in01_fadd_fsub hval hc hg, in01_fadd_fsub hval hc hb⟩
  intro ch hmem
  have hprod := within_fmul_f255 (hin ch hmem)
  exact ⟨hin ch hmem, hprod.finite, hprod.fle_f0, hprod.fle_of_pos (by decide) (by decide)⟩

end Sys2Proof.Machine

/-! ### The packed glyph and the painted entries (41_raster.md R162, R163) -/

namespace Sys2Proof.Machine

/-- The packed glyph of a code holds row `r` of the font's glyph in bits `5r` to `5r + 4` (R162). -/
theorem packGlyph_fontGlyph_bit (f : Font) (c : Byte) (r j : Fin 5) :
    (packGlyph (fontGlyph f c)).getLsbD (5 * r.val + j.val) = ((f[c.toNat]'c.isLt)[r]).getLsbD j.val :=
  packGlyph_bit (fontGlyph f c) r j

/-- An entry of a painted buffer, by the bit of the packed glyph that R163 maps it to. -/
theorem render_entry (fb : Buffer) (g : Glyph) (fg : Pixel) (bg : Option Pixel) (k : Fin 25) :
    (render fb g fg bg)[k] =
      if (packGlyph g).getLsbD (5 * (4 - k.val / 5) + k.val % 5) then fg else bg.getD fb[k] := by
  rw [render_get, glyphBit_packed]

/-! ### What GLYPH, RENDF and RENDO write (41_raster.md R162, R164, R165) -/

/-- Settles O27: GLYPH only sets GLY, to the packed glyph of CODE. -/
theorem glyphLatchesRows : Obligations.GlyphLatchesRows :=
  ⟨rfl, fun s => ⟨_, exec_eq .glyph s, packGlyph_fontGlyph_bit s.build.font s.code⟩⟩

/-- Settles O28: RENDF paints the glyph of CODE on the opaque background BG. -/
theorem rendfPaintsEveryEntry : Obligations.RendfPaintsEveryEntry :=
  ⟨rfl, fun s => ⟨_, _, exec_eq .rendf s, packGlyph_fontGlyph_bit s.build.font s.code,
    render_entry s.fb (fontGlyph s.build.font s.code) s.fg (some s.bg)⟩⟩

/-- Settles O29: RENDO paints the glyph of CODE with no background, so that a clear bit keeps its entry. -/
theorem rendoOverlaysSetBits : Obligations.RendoOverlaysSetBits :=
  ⟨rfl, fun s => ⟨_, _, exec_eq .rendo s, packGlyph_fontGlyph_bit s.build.font s.code,
    render_entry s.fb (fontGlyph s.build.font s.code) s.fg none⟩⟩

/-! ### The laws of the two renderings (41_raster.md R166) -/

/-- Painting a glyph again in the same colours changes no entry: a set bit gives `fg` both times, and a clear one the
background, or without one the entry the first painting kept. -/
theorem render_render (fb : Buffer) (g : Glyph) (fg : Pixel) (bg : Option Pixel) :
    render (render fb g fg bg) g fg bg = render fb g fg bg := by
  apply buffer_ext
  intro k
  rw [render_get, render_get]
  cases glyphBit g k with
  | true => rfl
  | false => cases bg <;> rfl

theorem State.paint_paint (s : State) (g : Glyph) (fg : Pixel) (bg : Option Pixel) :
    (s.paint g fg bg).paint g fg bg = s.paint g fg bg := by
  simp only [State.paint, State.setFb, State.setGly, render_render]

/-- Settles O31: the first command leaves the operands of the second, which paints the same glyph again. -/
theorem renderIsIdempotent : Obligations.RenderIsIdempotent := by
  intro s t
  constructor
  · intro h
    obtain rfl := exec_next h
    exact (exec_eq .rendf _).trans (congrArg Host.Outcome.next (s.paint_paint _ s.fg (some s.bg)))
  · intro h
    obtain rfl := exec_next h
    exact (exec_eq .rendo _).trans (congrArg Host.Outcome.next (s.paint_paint _ s.fg none))

/-- A second glyph painted over a first with no background: the entries under the set bits of either are `fg`. -/
theorem render_overlay_overlay (fb : Buffer) (g g' : Glyph) (fg : Pixel) (k : Fin 25) :
    (render (render fb g fg none) g' fg none)[k] = if glyphBit g k || glyphBit g' k then fg else fb[k] := by
  rw [render_get, render_get]
  cases glyphBit g k <;> cases glyphBit g' k <;> rfl

/-- Settles O32: the second RENDO paints the glyph of its code over the buffer the first has painted. -/
theorem overlaysPaintUnion : Obligations.OverlaysPaintUnion := by
  intro s c
  refine ⟨_, _, exec_eq .rendo s, exec_eq .rendo _, fun k => ?_⟩
  simp only [commandResult, State.paint_gly, ← glyphBit_packed]
  exact render_overlay_overlay s.fb _ _ s.fg k

/-- An overlay on a buffer filled with `p` is a painting on the opaque background `p` (R166 (c)). -/
theorem render_none_replicate (fb : Buffer) (g : Glyph) (fg p : Pixel) :
    render (Vector.replicate 25 p) g fg none = render fb g fg (some p) := by
  apply buffer_ext
  intro k
  rw [render_get, render_get, Option.getD_none, Option.getD_some, Fin.getElem_fin, Vector.getElem_replicate]

theorem State.paint_some_setFb (s : State) (fb : Buffer) (g : Glyph) (fg p : Pixel) :
    (s.setFb fb).paint g fg (some p) = s.paint g fg (some p) :=
  congrArg (s.setGly (packGlyph g)).setFb (render_some fb s.fb g fg p)

theorem State.paint_none_setFb_replicate (s : State) (g : Glyph) (fg p : Pixel) :
    (s.setFb (Vector.replicate 25 p)).paint g fg none = s.paint g fg (some p) :=
  congrArg (s.setGly (packGlyph g)).setFb (render_none_replicate s.fb g fg p)

/-- Settles O30: RENDF overwrites every entry, and a clear bit of RENDO keeps the BG the buffer is filled with. -/
theorem fillIsOverlayOnBackground : Obligations.FillIsOverlayOnBackground := by
  intro s fb
  rw [exec_eq, exec_eq, exec_eq]
  exact ⟨congrArg Host.Outcome.next (s.paint_some_setFb fb _ s.fg s.bg),
    congrArg Host.Outcome.next (s.paint_none_setFb_replicate _ s.fg s.bg)⟩

end Sys2Proof.Machine

/-! ### The band of a hue (42_color.md R183) -/

namespace Sys2Proof.Machine

section
variable {h : F} (hh : inhue h = true)
include hh

/-- The test against the band limit `60 * k`, as a bound on the sector. -/
theorem flt_limit_iff {lim : F} {k : Nat} (hf : isFinite lim = true) (hs : fSign lim = false)
    (hk : fMag lim = k * (60 * 2 ^ 149)) : flt h lim = true ↔ fMag h / (60 * 2 ^ 149) < k := by
  have hw := inhue_iff_within.1 hh
  rw [flt_iff (isNaN_of_finite hw.finite) (isNaN_of_finite hf), hw.fVal_eq, fVal_of_pos hs, hk, Int.ofNat_lt,
    Nat.div_lt_iff_lt_mul (by positivity)]

/-- The tests of R183, each asking whether the sector is below the next limit, pick the triple by the sector. -/
theorem band_eq (c x : F) :
    band h c x =
      if fMag h / (60 * 2 ^ 149) = 0 then (c, x, f0) else if fMag h / (60 * 2 ^ 149) = 1 then (x, c, f0)
      else if fMag h / (60 * 2 ^ 149) = 2 then (f0, c, x) else if fMag h / (60 * 2 ^ 149) = 3 then (f0, x, c)
      else if fMag h / (60 * 2 ^ 149) = 4 then (x, f0, c) else (c, f0, x) := by
  have h60 := flt_limit_iff hh (lim := f60) (k := 1) (by decide) (by decide) (by decide +kernel)
  have h120 := flt_limit_iff hh (lim := f120) (k := 2) (by decide) (by decide) (by decide +kernel)
  have h180 := flt_limit_iff hh (lim := f180) (k := 3) (by decide) (by decide) (by decide +kernel)
  have h240 := flt_limit_iff hh (lim := f240) (k := 4) (by decide) (by decide) (by decide +kernel)
  have h300 := flt_limit_iff hh (lim := f300) (k := 5) (by decide) (by decide) (by decide +kernel)
  simp only [band, h60, h120, h180, h240, h300]
  generalize fMag h / (60 * 2 ^ 149) = sector
  match sector with
  | 0 | 1 | 2 | 3 | 4 | sector + 5 => rfl

end

/-- Settles O14: the five limits are the multiples of 60, so the first one above the hue is the one above its sector. -/
theorem bandBySector : Obligations.BandBySector := by
  intro h c x hh
  dsimp only
  rw [band_eq hh]
  generalize fMag h / (60 * 2 ^ 149) = sector
  refine ⟨?_, ?_, ?_, ?_, ?_, fun hlast => ?last⟩
  case last =>
    obtain ⟨k, rfl⟩ := Nat.exists_eq_add_of_le' hlast
    rfl
  all_goals
    rintro rfl
    rfl

/-! ### The quantised channel (42_color.md R184) -/

theorem Within.truncU8_toNat {m : Nat} {y : F} (h : Within m y) (hlt : fMag y < 256 * 2 ^ 149) :
    (truncU8 y).toNat = fMag y / 2 ^ 149 := by
  have hn := isNaN_of_finite h.finite
  cases hs : fSign y
  · exact Sys2Proof.Machine.truncU8_toNat hn hs hlt
  · rw [truncU8_of_neg hn hs, h.sign hs]
    rfl

/-- What lies below the midpoint of two neighbours is rounded to no more than the lower one. -/
theorem roundBits_le_of_lt_midpoint {num den n : Nat} (hd : 0 < den)
    (h : 2 * num < magOf n * den + magOf (n + 1) * den) : roundBits num den ≤ n := by
  by_contra hgt
  have hnext : magOf (n + 1) * den ≤ magOf (roundBits num den) * den :=
    Nat.mul_le_mul_right den (magOf_le_iff.2 (by omega))
  have hlt : magOf n * den < magOf (n + 1) * den := Nat.mul_lt_mul_of_pos_right (magOf_succ n) hd
  have hnear := (roundBits_nearest (num := num) hd n).1
  unfold roundError at hnear
  omega

/-- A channel other than 1.0 is no more than its predecessor, `1 - 2^-24`. -/
theorem fMag_le_of_ne_f1 {ch : F} (hch : in01 ch = true) (hne : ch ≠ f1) : fMag ch ≤ 2 ^ 149 - 2 ^ 125 := by
  have hw := in01_iff_within.1 hch
  have hle := hw.le
  rw [← fMag_f1, fMag_le_fMag] at hle
  have hpred : fMag 0x3F7FFFFF#32 = 2 ^ 149 - 2 ^ 125 := by decide +kernel
  have hbits : magBits f1 = magBits 0x3F7FFFFF#32 + 1 := by decide
  have hsign : magBits ch = magBits f1 → fSign ch = fSign f1 := by
    intro hm
    have h0 : fMag ch ≠ 0 := by
      rw [Ne, fMag_eq_zero, hm]
      decide
    exact Bool.eq_false_iff.2 fun hs => h0 (hw.sign hs)
  have hm : magBits ch ≠ magBits f1 := fun hm => hne (F_ext (hsign hm) hm)
  rw [← hpred, fMag_le_fMag]
  omega

/-- The product of such a channel is below the midpoint of 255.0 and its predecessor, so it is rounded below 255.0. -/
theorem fMag_fmul_f255_lt {ch : F} (hch : in01 ch = true) (hne : ch ≠ f1) :
    fMag (fmul ch f255) < 255 * 2 ^ 149 := by
  have h255 : fMag f255 = 255 * 2 ^ 149 := by decide +kernel
  have hpred : magOf (magBits 0x437EFFFF#32) = 255 * 2 ^ 149 - 2 ^ 133 := by decide +kernel
  have hnext : magOf (magBits 0x437EFFFF#32 + 1) = 255 * 2 ^ 149 := by decide +kernel
  have hle := fMag_le_of_ne_f1 hch hne
  have hbits : roundBits (fMag ch * fMag f255) (2 ^ 149) ≤ magBits 0x437EFFFF#32 := by
    apply roundBits_le_of_lt_midpoint (by positivity)
    rw [hpred, hnext, h255]
    omega
  have hmag : fMag (fmul ch f255) ≤ fMag 0x437EFFFF#32 := by
    rw [fmul_eq (in01_iff_within.1 hch).finite (by decide), fMag_le_fMag, magBits_roundMag]
    exact (min_le_left _ _).trans hbits
  rw [fMag_eq 0x437EFFFF#32, hpred] at hmag
  omega

theorem quant_toNat_le {ch : F} (hch : in01 ch = true) (hne : ch ≠ f1) : (quant ch).toNat ≤ 254 := by
  have hlt := fMag_fmul_f255_lt hch hne
  rw [quant, (within_fmul_f255 hch).truncU8_toNat (by omega)]
  omega

theorem quant_f1 : quant f1 = 255#8 := by decide +kernel

/-- Settles O16: the bound is that of the product, which stays below 255.0 by its rounding. -/
theorem quantisationTruncates : Obligations.QuantisationTruncates :=
  ⟨fun _ => rfl, fun _ _ _ => rfl, quant_f1, by decide +kernel, fun _ => quant_toNat_le⟩

/-! ### Zeros among the operands (40_numerics.md R132, 42_color.md R186) -/

section
variable {u m : F}

theorem eq_zero_of_fMag_eq_zero (h : fMag u = 0) : u = f0 ∨ u = 0x80000000#32 := by
  rw [fMag_eq_zero] at h
  cases hs : fSign u
  · exact Or.inl (F_ext hs h)
  · exact Or.inr (F_ext hs h)

theorem quant_of_fMag_eq_zero (h : fMag u = 0) : quant u = 0#8 := by
  rcases eq_zero_of_fMag_eq_zero h with rfl | rfl
  · decide +kernel
  · decide +kernel

theorem fVal_of_fMag_eq_zero (h : fMag u = 0) : fVal u = 0 := by
  rw [← Int.natAbs_eq_zero, natAbs_fVal, h]

/-- Rounding the exact value of a number changes at most the sign of a zero, and no channel. -/
theorem quant_roundSum_fVal (hm : isFinite m = true) (negZero : Bool) :
    quant (roundSum negZero (fVal m)) = quant m := by
  by_cases h0 : fMag m = 0
  · rw [quant_of_fMag_eq_zero h0, fVal_of_fMag_eq_zero h0]
    exact quant_of_fMag_eq_zero (by rw [fMag_roundSum]; exact fMag_roundMag_zero false Nat.one_pos)
  · rw [roundSum_fVal hm negZero h0]

theorem quant_fadd_of_left_zero (hu : isFinite u = true) (h0 : fMag u = 0) (hm : isFinite m = true) :
    quant (fadd u m) = quant m := by
  rw [fadd_eq hu hm, fVal_of_fMag_eq_zero h0, zero_add, quant_roundSum_fVal hm]

theorem quant_fadd_of_right_zero (hu : isFinite u = true) (hm : isFinite m = true) (h0 : fMag m = 0) :
    quant (fadd u m) = quant u := by
  rw [fadd_eq hu hm, fVal_of_fMag_eq_zero h0, add_zero, quant_roundSum_fVal hu]

theorem quant_fsub_of_right_zero (hu : isFinite u = true) (hm : isFinite m = true) (h0 : fMag m = 0) :
    quant (fsub u m) = quant u := by
  rw [fsub_eq hu hm, fVal_of_fMag_eq_zero h0, sub_zero, quant_roundSum_fVal hu]

end

theorem fMag_fmul_eq_zero {a b : F} (ha : isFinite a = true) (hb : isFinite b = true) (h : fMag a = 0 ∨ fMag b = 0) :
    fMag (fmul a b) = 0 := by
  rw [fmul_eq ha hb, Nat.mul_eq_zero.2 h]
  exact fMag_roundMag_zero _ (by positivity)

/-! ### The secondary component (42_color.md R182) -/

/-- The weight `w` of R182, by which the secondary component is a part of the chroma. -/
def hueWeight (h : F) : F := fsub f1 (fabs (fsub (frem2 (fdiv h f60)) f1))

theorem secondary_eq (h c : F) : secondary h c = fmul c (hueWeight h) := rfl

/-- The bound behind `within_secondary`, for the weight itself: the remainder is in [0, 2], so its distance from 1.0 is
at most 1.0. -/
theorem within_hueWeight {h : F} (hh : inhue h = true) : Within (2 ^ 149) (hueWeight h) := by
  have h60 : fMag f60 = 60 * 2 ^ 149 := by decide +kernel
  have hin := inhue_iff_within.1 hh
  have hquot : Within (fMag h) (fdiv h f60) :=
    hin.self.fdiv hin.finite (Within.of_pos (by decide) (by decide)) (by rw [h60]; positivity)
      (Nat.mul_le_mul_left _ (by rw [h60]; norm_num))
  have hrem := hquot.frem2
  have hdist : Within (fMag f1) (fabs (fsub (frem2 (fdiv h f60)) f1)) := by
    rw [fsub_eq hrem.finite (by decide)]
    refine within_fabs_roundSum (by decide) ?_
    rw [hrem.fVal_eq, fVal_f1, fMag_f1]
    have := hrem.le
    omega
  exact fMag_f1 ▸ within_f1.fsub hdist hdist.le

theorem fmul_f1_left {w : F} (hw : isFinite w = true) : fmul f1 w = w := by
  have hsign : (fSign f1 != fSign w) = fSign w := Bool.false_bne _
  rw [fmul_eq (by decide) hw, hsign, fMag_f1, mul_comm, roundMag_fMag hw (by positivity)]

/-! ### The pixel of an HSV triple (42_color.md R184, R186, R187) -/

theorem hsv2rgbU8_eq (h sat val : F) :
    hsv2rgbU8 h sat val =
      px (quant (fadd (band h (chroma sat val) (secondary h (chroma sat val))).1 (fsub val (chroma sat val))))
        (quant (fadd (band h (chroma sat val) (secondary h (chroma sat val))).2.1 (fsub val (chroma sat val))))
        (quant (fadd (band h (chroma sat val) (secondary h (chroma sat val))).2.2 (fsub val (chroma sat val)))) := rfl

section
variable {h sat val : F}

theorem within_chroma (hsat : in01 sat = true) (hval : in01 val = true) : Within (fMag val) (chroma sat val) :=
  have hv := in01_iff_within.1 hval
  hv.self.fmul hv.finite (in01_iff_within.1 hsat) le_rfl

/-- Without chroma every component the band picks is a zero, and the channels are those of the value. -/
theorem hsv2rgbU8_of_chroma_zero (hh : inhue h = true) (hsat : in01 sat = true) (hval : in01 val = true)
    (h0 : fMag (chroma sat val) = 0) : hsv2rgbU8 h sat val = px (quant val) (quant val) (quant val) := by
  have hv := in01_iff_within.1 hval
  have hc := within_chroma hsat hval
  have hx := within_secondary hh hc
  have hm := hv.fsub hc hc.le
  have hgrey : ∀ u, isFinite u = true → fMag u = 0 → quant (fadd u (fsub val (chroma sat val))) = quant val := by
    intro u hu hu0
    rw [quant_fadd_of_left_zero hu hu0 hm.finite, quant_fsub_of_right_zero hv.finite hc.finite h0]
  obtain ⟨hr, hg, hb⟩ := band_of_parts (p := fun u => quant (fadd u (fsub val (chroma sat val))) = quant val) h
    (hgrey _ hc.finite h0) (hgrey _ hx.finite (Nat.le_zero.1 (h0 ▸ hx.le))) (hgrey f0 (by decide) (by decide))
  rw [hsv2rgbU8_eq, hr, hg, hb]

/-- The weight at hue 360 is that at hue 0, a zero, so `(c, x, 0)` and `(c, 0, x)` have the same channels. -/
theorem hsv2rgbU8_f360 (hsat : in01 sat = true) (hval : in01 val = true) :
    hsv2rgbU8 f360 sat val = hsv2rgbU8 f0 sat val := by
  have hc := within_chroma hsat hval
  have hm := (in01_iff_within.1 hval).fsub hc hc.le
  have hw0 : hueWeight f0 = f0 := by decide +kernel
  have hw360 : hueWeight f360 = f0 := by decide +kernel
  have hx := within_secondary (h := f0) (by decide) hc
  have hx0 : fMag (secondary f0 (chroma sat val)) = 0 := by
    rw [secondary_eq, hw0]
    exact fMag_fmul_eq_zero hc.finite (by decide) (Or.inr (by decide))
  have hband0 : ∀ c x, band f0 c x = (c, x, f0) := fun _ _ => rfl
  have hband360 : ∀ c x, band f360 c x = (c, f0, x) := fun _ _ => rfl
  have hsame : secondary f360 (chroma sat val) = secondary f0 (chroma sat val) := by
    rw [secondary_eq, secondary_eq, hw360, hw0]
  rw [hsv2rgbU8_eq, hsv2rgbU8_eq, hband0, hband360, hsame, quant_fadd_of_left_zero hx.finite hx0 hm.finite,
    quant_fadd_of_left_zero (u := f0) (by decide) (by decide) hm.finite]

/-- The two zeros have the same weight and are both below every band limit. -/
theorem hsv2rgbU8_neg_zero (sat val : F) : hsv2rgbU8 0x80000000#32 sat val = hsv2rgbU8 f0 sat val := by
  have hw : hueWeight 0x80000000#32 = hueWeight f0 := by decide +kernel
  have hsame : secondary 0x80000000#32 (chroma sat val) = secondary f0 (chroma sat val) := by
    rw [secondary_eq, secondary_eq, hw]
  have hband : ∀ c x, band 0x80000000#32 c x = band f0 c x := fun _ _ => rfl
  rw [hsv2rgbU8_eq, hsv2rgbU8_eq, hband, hsame]

end

/-- At full saturation and value the chroma is 1.0, and adding `1.0 - 1.0` changes no channel. -/
theorem hsv2rgbU8_f1_f1 {h : F} (hh : inhue h = true) :
    hsv2rgbU8 h f1 f1 = px (quant (band h f1 (hueWeight h)).1) (quant (band h f1 (hueWeight h)).2.1)
      (quant (band h f1 (hueWeight h)).2.2) := by
  have hchroma : chroma f1 f1 = f1 := by decide +kernel
  have hm : fsub f1 f1 = f0 := by decide +kernel
  have hw := (within_hueWeight hh).finite
  have hsecondary : secondary h f1 = hueWeight h := fmul_f1_left hw
  have hkeep : ∀ u, isFinite u = true → quant (fadd u f0) = quant u :=
    fun u hu => quant_fadd_of_right_zero hu (by decide) (by decide)
  obtain ⟨hr, hg, hb⟩ := band_of_parts (p := fun u => quant (fadd u f0) = quant u) h
    (hkeep f1 (by decide)) (hkeep _ hw) (hkeep f0 (by decide))
  rw [hsv2rgbU8_eq, hchroma, hsecondary, hm, hr, hg, hb]

/-- Settles O15: the channels at 1.0 are those of the band's triple `1.0`, `w` and 0. -/
theorem fullSaturationChannels : Obligations.FullSaturationChannels := by
  intro h hh
  have hzero : quant f0 = 0#8 := quant_of_fMag_eq_zero (by decide)
  dsimp only
  rw [hsv2rgbU8_f1_f1 hh, band_eq hh]
  split_ifs
  all_goals
    rw [quant_f1, hzero]
    rfl

/-! ### The commands HSV and HUE (42_color.md R185, R186) -/

/-- Settles O13: the triple is that of the band, and each corner case makes some operand of a sum a zero. -/
theorem hsvComputesColor : Obligations.HsvComputesColor := by
  refine ⟨by decide, fun s => ⟨fun hin => ?valid, fun hout => ?error⟩, fun h sat val hh hsat hval => ?values,
    by decide +kernel, by decide +kernel, by decide +kernel⟩
  case valid => exact (exec_eq .hsv s).trans (congrArg Host.Outcome.next (if_pos hin))
  case error => exact (exec_eq .hsv s).trans (congrArg Host.Outcome.next (if_neg (Bool.eq_false_iff.1 hout)))
  case values =>
    have hv := in01_iff_within.1 hval
    have hgrey := hsv2rgbU8_of_chroma_zero hh hsat hval
    have hzero := fMag_fmul_eq_zero hv.finite (in01_iff_within.1 hsat).finite
    refine ⟨?formula, fun hs0 => hgrey (hzero (Or.inr hs0)), fun hv0 => ?black, hsv2rgbU8_f360 hsat hval,
      hsv2rgbU8_neg_zero sat val⟩
    case formula =>
      rw [hsv2rgbU8_eq, hsv2rgbF, band_eq hh]
      exact ⟨rfl, rfl⟩
    case black =>
      rw [hgrey (hzero (Or.inl hv0)), quant_of_fMag_eq_zero hv0]
      rfl

/-- Where the sine is a zero of either sign, the sum with 1.0 is 1.0 and the hue is 180. -/
theorem hueOf_of_sine_zero {b : Build} {t : F} (h : fMag (sine b (fmul Config.twoPi t)) = 0) : hueOf b t = f180 := by
  unfold hueOf
  dsimp only
  rcases eq_zero_of_fMag_eq_zero h with hzero | hzero
  · rw [hzero]
    decide +kernel
  · rw [hzero]
    decide +kernel

theorem hueColor_of_sine_zero {b : Build} {t : F} (h : fMag (sine b (fmul Config.twoPi t)) = 0) :
    hueColor b t = 0x00FFFF#24 := by
  rw [hueColor, hueOf_of_sine_zero h]
  decide +kernel

theorem exec_hue_of_in01 {s : State} (h : in01 s.regT = true) :
    exec .hue s = .next (s.setColor (hueColor s.build s.regT)) :=
  (exec_eq .hue s).trans (congrArg Host.Outcome.next (if_pos h))

theorem exec_hue_of_sine_zero {s : State} (h : in01 s.regT = true)
    (hs : fMag (sine s.build (fmul Config.twoPi s.regT)) = 0) : exec .hue s = .next (s.setColor 0x00FFFF#24) := by
  rw [exec_hue_of_in01 h, hueColor_of_sine_zero hs]

/-- Settles O12: TWO_PI times a zero is that zero, whose sine is a zero by SIN_ZERO or by the hypothesis. -/
theorem hueComputesColor : Obligations.HueComputesColor := by
  have hone : in01 f1 = true := by decide +kernel
  have hnegZero : in01 0x80000000#32 = true := by decide +kernel
  have hmulZero : fmul Config.twoPi f0 = f0 := by decide +kernel
  have hmulNegZero : fmul Config.twoPi 0x80000000#32 = 0x80000000#32 := by decide +kernel
  refine ⟨by decide, fun s => ⟨exec_hue_of_in01, fun hout => ?error, hone, hnegZero, fun ht => ?zero,
    fun ht hs => ?negZero⟩⟩
  case error => exact (exec_eq .hue s).trans (congrArg Host.Outcome.next (if_neg (Bool.eq_false_iff.1 hout)))
  case zero =>
    have ht : s.regT = f0 := ht
    refine exec_hue_of_sine_zero (by rw [ht]; decide +kernel) ?_
    rw [ht, hmulZero, sine_zero]
    decide
  case negZero => exact exec_hue_of_sine_zero (ht ▸ hnegZero) (by rw [ht, hmulNegZero, hs])

end Sys2Proof.Machine

/-! ### The laws of the scaled channel (43_frame_output.md R201, R203) -/

namespace Sys2Proof.Machine

section
variable (a b : Byte)

theorem scaleCh_toNat_le : (scaleCh a b).toNat ≤ a.toNat := by
  rw [scaleCh_toNat]
  refine Nat.div_le_of_le_mul ?_
  rw [Nat.mul_comm]
  exact Nat.mul_le_mul_right _ b.isLt.le

/-- The numerator is below 256, so scaling lowers every channel that is not black. -/
theorem scaleCh_eq_self_iff : scaleCh a b = a ↔ a = 0#8 := by
  rw [← BitVec.toNat_inj, ← BitVec.toNat_inj, scaleCh_toNat]
  refine ⟨fun h => by_contra fun h0 => ?_, fun h => by simp [h]⟩
  have hlt : a.toNat * b.toNat < a.toNat * 256 := Nat.mul_lt_mul_of_pos_left b.isLt (Nat.pos_of_ne_zero h0)
  omega

theorem scaleCh_eq_zero_iff : scaleCh a b = 0#8 ↔ a.toNat * b.toNat < 256 := by
  rw [← BitVec.toNat_inj, scaleCh_toNat]
  exact Nat.div_eq_zero_iff_lt (by decide)

theorem scaleCh_ne_255 : scaleCh a b ≠ 255#8 := by
  intro h
  have hle : (255#8).toNat ≤ 254 := h ▸ (scaleChannelIsHighByte a b).2
  exact absurd hle (by decide)

end

theorem scaleCh_mono {a b c d : Byte} (hab : a.toNat ≤ b.toNat) (hcd : c.toNat ≤ d.toNat) :
    (scaleCh a c).toNat ≤ (scaleCh b d).toNat := by
  rw [scaleCh_toNat, scaleCh_toNat]
  exact Nat.div_le_div_right (Nat.mul_le_mul hab hcd)

@[simp] theorem State.setOut_setOut (s : State) (b c : Buffer) : (s.setOut b).setOut c = s.setOut c := rfl

/-- SCALE reads FB and BRIGHT, which it leaves as they are. -/
theorem commandResult_scale_scale (s : State) :
    commandResult .scale (commandResult .scale s) = commandResult .scale s := by
  simp [commandResult]

/-- Settles O34: each law is one of the product by BRIGHT, and the second SCALE reads what the first one read. -/
theorem scaleChannelLaws : Obligations.ScaleChannelLaws := by
  refine ⟨fun a b c h => ⟨scaleCh_mono h le_rfl, scaleCh_mono le_rfl h⟩,
    fun a b => ⟨scaleCh_toNat_le a b, scaleCh_eq_self_iff a b, scaleCh_eq_zero_iff a b⟩, fun s t h => ?_⟩
  obtain rfl := exec_next h
  rw [exec_eq, commandResult_scale_scale]

/-! ### What SCALE and EMIT do (43_frame_output.md R202, R204 to R207) -/

/-- A numerator of 0 or 1 keeps every product below 256, and with it every channel black. -/
theorem scalePx_of_le_one (p : Pixel) {b : Byte} (h : b.toNat ≤ 1) : scalePx p b = 0#24 := by
  have hblack : ∀ a : Byte, scaleCh a b = 0#8 := fun a =>
    (scaleCh_eq_zero_iff a b).2 ((mul_le_of_le_one_right (Nat.zero_le _) h).trans_lt a.isLt)
  rw [scalePx, hblack, hblack, hblack]
  rfl

/-- Settles O33: an entry of OUT is the scaled pixel of FB, whose channels are the scaled channels. -/
theorem scaleWritesOut : Obligations.ScaleWritesOut := by
  refine ⟨rfl, fun s => ⟨scaleBuffer s.fb s.bright, exec_eq .scale s, fun k => ?channels, fun h k => ?black⟩⟩
  case channels =>
    rw [scaleBuffer_get, scalePx, pxR_px, pxG_px, pxB_px]
    exact ⟨scaleCh_toNat _ _, scaleCh_toNat _ _, scaleCh_toNat _ _,
      scaleCh_ne_255 _ _, scaleCh_ne_255 _ _, scaleCh_ne_255 _ _⟩
  case black => rw [scaleBuffer_get, scalePx_of_le_one _ h]

/-- Settles O36: EMIT only sends OUT, and the sink's answer decides between the record and the flag. -/
theorem emitHandsOverOut : Obligations.EmitHandsOverOut := by
  refine ⟨rfl, fun s => ⟨frameOf s.out, fun k => ?entries, fun h => ?ok, fun h => ?fail⟩⟩
  case entries =>
    rw [frameOf_get]
    exact ⟨rfl, rfl, rfl⟩
  case ok => exact (exec_eq .emit s).trans (congrArg Host.Outcome.next (sendOut_ok h))
  case fail => exact (exec_eq .emit s).trans (congrArg Host.Outcome.next (sendOut_fail h))

/-! ### The sink record (43_frame_output.md R206, R207) -/

/-- The record is kept, or an accepted frame of the new OUT is appended to it. -/
def RecordGrows (s t : State) : Prop :=
  t.sinkRecord = s.sinkRecord ∨ (s.sinkAnswer = .ok ∧ t.sinkRecord = s.sinkRecord ++ [frameOf t.out])

theorem sendOut_recordGrows (s : State) : RecordGrows s s.sendOut := by
  cases ha : s.sinkAnswer
  · rw [sendOut_ok ha]
    exact Or.inr ⟨ha, rfl⟩
  · rw [sendOut_fail ha]
    exact Or.inl rfl

theorem tick_recordGrows (s : State) : RecordGrows s s.tickFrame.tickFinish := by
  cases ha : s.sinkAnswer
  · rw [tickFinish_ok (s := s.tickFrame) ha]
    exact Or.inr ⟨ha, rfl⟩
  · rw [tickFinish_fail (s := s.tickFrame) ha]
    exact Or.inl rfl

/-- Only EMIT and TICK can append a frame; TICK outside its domain ends before it has one (R216 line 0). -/
theorem exec_sinkRecord_cases {i : Instr} {s t : State} (h : exec i s = .next t) :
    t.sinkRecord = s.sinkRecord ∨
      ((i = .emit ∨ i = .tick) ∧ s.sinkAnswer = .ok ∧ t.sinkRecord = s.sinkRecord ++ [frameOf t.out]) := by
  obtain rfl := exec_next h
  cases i
  case hue | hsv =>
    rw [commandResult]
    exact Or.inl (by split <;> simp)
  case glyph | rendf | rendo | scale => exact Or.inl (by simp [commandResult])
  case emit => exact (sendOut_recordGrows s).imp id (⟨Or.inl rfl, ·⟩)
  case tick =>
    rw [commandResult]
    split
    · exact (tick_recordGrows s).imp id (⟨Or.inr rfl, ·⟩)
    · exact Or.inl (State.raise_sinkRecord s .edom)

theorem dataField_sinkRecord : DataField State.sinkRecord :=
  ⟨State.issue_sinkRecord, State.setLastRead_sinkRecord, State.raise_sinkRecord⟩

theorem State.writeReg_sinkRecord (s : State) (v : Word) (r : HostReg) :
    (s.writeReg v r).sinkRecord = s.sinkRecord := by
  cases r <;> rfl

/-- A pending reset is performed on the state that has issued it (70_reset_and_hazards.md R270). -/
theorem step_reset {s t : State} (h : step s = .next t) (hr : s.nextAction = some .reset) :
    ∃ rest a, t = (s.issue rest a).applyReset := by
  rcases step_next_cases h with ⟨hp, _⟩ | ⟨e, rest, hp, hx⟩
  · simp [State.nextAction, hp] at hr
  · have he : e.action = .reset := by simpa [State.nextAction, hp] using hr
    rw [he] at hx
    exact ⟨rest, e.answer, (Host.Outcome.next.inj hx).symm⟩

/-- Settles O51: of the effects a step can have, only a command reaches the record, and of the commands only EMIT and
TICK. -/
theorem sinkRecordOnlyGrows : Obligations.SinkRecordOnlyGrows := by
  intro s t h
  by_cases hr : s.nextAction = some .reset
  · obtain ⟨rest, a, rfl⟩ := step_reset h hr
    exact Or.inl rfl
  obtain ⟨rest, a, he⟩ := step_effect h hr
  cases he with
  | keep => exact Or.inl rfl
  | read => exact Or.inl (dataField_sinkRecord.regRead _ _)
  | undefinedCommand => exact Or.inl rfl
  | store => exact Or.inl (State.writeReg_sinkRecord _ _ _)
  | command hc ha hx =>
    refine (exec_sinkRecord_cases hx).imp id fun ⟨hcmd, hok, hgrow⟩ => ⟨?_, ha.trans (congrArg some hok), hgrow⟩
    exact hcmd.imp (hc.trans <| congrArg some ·) (hc.trans <| congrArg some ·)

end Sys2Proof.Machine

/-! ### The new TIME (44_tick.md R221, R222, R224; 40_numerics.md R132) -/

namespace Sys2Proof.Machine

theorem in01_f0 : in01 f0 = true := by decide

section
variable {m n : Nat} {a b y : F}

theorem fgt_f1_iff (h : Within m y) : fgt y f1 = true ↔ 2 ^ 149 < fMag y := by
  rw [fgt_iff (isNaN_of_finite h.finite) (by decide), fVal_f1, h.fVal_eq]
  omega

theorem fgt_f1_eq_false_iff (h : Within m y) : fgt y f1 = false ↔ fMag y ≤ 2 ^ 149 := by
  rw [← Bool.not_eq_true, fgt_f1_iff h, not_lt]

theorem Within.fadd (hy : isFinite y = true) (ha : Within m a) (hb : Within n b) (h : m + n ≤ fMag y) :
    Within (fMag y) (fadd a b) := by
  have hale := ha.le
  have hble := hb.le
  rw [fadd_eq ha.finite hb.finite, ha.fVal_eq, hb.fVal_eq]
  exact within_roundSum hy (by omega) (roundBits_le_of_le_fMag (by omega))

/-- The rounded sum of two numbers in [0, 1] is at most 2.0. -/
theorem fadd_within_two (ha : in01 a = true) (hb : in01 b = true) : Within (2 ^ 150) (fadd a b) := by
  have htwo : fMag 0x40000000#32 = 2 ^ 150 := by decide +kernel
  rw [← htwo]
  exact (in01_iff_within.1 ha).fadd (by decide) (in01_iff_within.1 hb) (by rw [htwo]; norm_num)

/-- A sum is -0.0 only if both operands are. -/
theorem fadd_eq_neg_zero (ha : in01 a = true) (hb : in01 b = true) (h : fadd a b = 0x80000000#32) :
    a = 0x80000000#32 ∧ b = 0x80000000#32 := by
  have ha := in01_iff_within.1 ha
  have hb := in01_iff_within.1 hb
  have hsign : fSign (fadd a b) = true := by
    rw [h]
    decide
  rw [fadd_eq ha.finite hb.finite, ha.fVal_eq, hb.fVal_eq, fSign_roundSum_of_nonneg (by omega), Bool.and_eq_true,
    Bool.and_eq_true] at hsign
  obtain ⟨⟨hsa, hsb⟩, -⟩ := hsign
  exact ⟨F_ext hsa (fMag_eq_zero.1 (ha.sign hsa)), F_ext hsb (fMag_eq_zero.1 (hb.sign hsb))⟩

/-- Adding +0.0 changes only the sign of a negative zero (log 20). -/
theorem fadd_f0 (ha : isFinite a = true) : fadd a f0 = if a = 0x80000000#32 then f0 else a := by
  by_cases h0 : fMag a = 0
  · rcases eq_zero_of_fMag_eq_zero h0 with rfl | rfl <;> decide +kernel
  · have hne : a ≠ 0x80000000#32 := by
      rintro rfl
      exact h0 (by decide)
    have hf0 : fVal f0 = 0 := by decide
    rw [if_neg hne, fadd_eq ha (by decide), hf0, add_zero, roundSum_fVal ha _ h0]

/-- A number from 1.0 to 2.0 is a multiple of 2^126 units, and so is its excess over 1.0. -/
theorem exists_magOf_eq_sub_one (hlo : 2 ^ 149 ≤ magOf n) (hhi : magOf n ≤ 2 ^ 150) :
    ∃ j, magOf j = magOf n - 2 ^ 149 := by
  obtain ⟨c, hc⟩ := dvd_magOf (k := 126) hlo
  obtain ⟨j, hj⟩ := exists_magOf_eq (s := c - 2 ^ 23) (by omega) 126
  exact ⟨j, by omega⟩

/-- From 1.0 to 2.0, subtracting 1.0 is exact. -/
theorem fMag_fsub_f1 (hy : Within (2 ^ 150) y) (hlo : 2 ^ 149 ≤ fMag y) : fMag (fsub y f1) = fMag y - 2 ^ 149 := by
  have hhi := hy.le
  obtain ⟨j, hj⟩ := exists_magOf_eq_sub_one (n := magBits y) (by rwa [← fMag_eq]) (by rwa [← fMag_eq])
  rw [← fMag_eq] at hj
  have hdiff : ((fMag y : Int) - 2 ^ 149).natAbs = magOf j := by omega
  rw [fsub_eq hy.finite (by decide), hy.fVal_eq, fVal_f1, fMag_roundSum, hdiff, ← hj]
  exact fMag_roundMag_of_magOf false (y := f1) (by decide) (by rw [fMag_f1]; omega)

theorem within_fsub_f1 (hy : Within (2 ^ 150) y) (hlo : 2 ^ 149 ≤ fMag y) : Within (2 ^ 149) (fsub y f1) := by
  have hw := hy.self.fsub within_f1 (by rwa [fMag_f1])
  have hmag := fMag_fsub_f1 hy hlo
  have hhi := hy.le
  exact ⟨hw.finite, by omega, hw.sign⟩

end

section
variable {a b : F} (ha : in01 a = true) (hb : in01 b = true)
include ha hb

/-- The loop of R221 subtracts at most once. -/
theorem nextTime_eq : nextTime a b = if fgt (fadd a b) f1 then fsub (fadd a b) f1 else fadd a b := by
  have hy := fadd_within_two ha hb
  rw [nextTime, renormalise]
  split
  · next hgt =>
    have hsub := within_fsub_f1 hy ((fgt_f1_iff hy).1 hgt).le
    rw [renormalise, if_neg (by rw [(fgt_f1_eq_false_iff hsub).2 hsub.le]; decide)]
  · rfl

theorem in01_nextTime : in01 (nextTime a b) = true := by
  have hy := fadd_within_two ha hb
  rw [nextTime_eq ha hb, in01_iff_within]
  split
  · next hgt => exact within_fsub_f1 hy ((fgt_f1_iff hy).1 hgt).le
  · next hle => exact ⟨hy.finite, (fgt_f1_eq_false_iff hy).1 (Bool.eq_false_iff.2 hle), hy.sign⟩

theorem nextTime_eq_neg_zero (h : nextTime a b = 0x80000000#32) : a = 0x80000000#32 ∧ b = 0x80000000#32 := by
  have hy := fadd_within_two ha hb
  rw [nextTime_eq ha hb] at h
  split at h
  · next hgt =>
    have hlo := (fgt_f1_iff hy).1 hgt
    have hmag := fMag_fsub_f1 hy hlo.le
    rw [h, show fMag 0x80000000#32 = 0 by decide] at hmag
    omega
  · exact fadd_eq_neg_zero ha hb h

end

theorem nextTime_f0 {a : F} (ha : in01 a = true) : nextTime a f0 = if a = 0x80000000#32 then f0 else a := by
  have hw := in01_iff_within.1 ha
  rw [nextTime_eq ha in01_f0, fadd_f0 hw.finite]
  by_cases hz : a = 0x80000000#32
  · subst hz
    decide +kernel
  · rw [if_neg hz, if_neg (by rw [(fgt_f1_eq_false_iff hw).2 hw.le]; decide)]

/-- Settles O39: the sum is at most 2.0, where subtracting 1.0 is exact and leaves at most 1.0. -/
theorem timeWrapsExactlyOnce : Obligations.TimeWrapsExactlyOnce := by
  intro a b ha hb
  have hy := fadd_within_two ha hb
  have hnext := nextTime_eq ha hb
  refine ⟨fun hgt => ?above, fun hle => by rw [hnext, if_neg (by rw [hle]; decide)], in01_nextTime ha hb,
    nextTime_eq_neg_zero ha hb, nextTime_f0 ha⟩
  case above =>
    have hlo := ((fgt_f1_iff hy).1 hgt).le
    have hsub := within_fsub_f1 hy hlo
    refine ⟨by rw [hnext, if_pos hgt], ?_, (fgt_f1_eq_false_iff hsub).2 hsub.le⟩
    rw [hsub.fVal_eq, hy.fVal_eq, fVal_f1, fMag_fsub_f1 hy hlo]
    omega

end Sys2Proof.Machine

/-! ### The character index (44_tick.md R219, R220, R223; 10_state.md R31) -/

namespace Sys2Proof.Machine

theorem charIndex_lt (m : Message) (iter : Word) : charIndex m iter < messageLength m := Nat.mod_lt _ (Nat.succ_pos _)

/-- Inside the message, `messageByte` is the byte of the list itself (R9). -/
theorem getElem?_message {m : Message} {i : Nat} (h : i < messageLength m) :
    (m.first :: m.rest)[i]? = some (messageByte m i) := by
  rw [messageByte, List.getD_eq_getElem _ _ h, List.getElem?_eq_getElem h]

/-- Between wraps of ITER the counter is the number of ticks done. -/
theorem charIndex_ofNat (m : Message) {n : Nat} (h : n < 2 ^ 32) :
    charIndex m (BitVec.ofNat 32 n) = n / 30 % messageLength m := by
  rw [charIndex, BitVec.toNat_ofNat, Nat.mod_eq_of_lt h, Config.dwell]

theorem charIndex_succ (m : Message) {n : Nat} (h : n + 1 < 2 ^ 32) :
    charIndex m (BitVec.ofNat 32 (n + 1)) =
      if (n + 1) % 30 = 0 then (charIndex m (BitVec.ofNat 32 n) + 1) % messageLength m
      else charIndex m (BitVec.ofNat 32 n) := by
  rw [charIndex_ofNat m h, charIndex_ofNat m (Nat.lt_of_succ_lt h), Nat.mod_add_mod]
  split
  · next hdvd => rw [show (n + 1) / 30 = n / 30 + 1 by omega]
  · next hdvd => rw [show (n + 1) / 30 = n / 30 by omega]

theorem charIndex_period (m : Message) {n : Nat} (h : n + 30 * messageLength m < 2 ^ 32) :
    charIndex m (BitVec.ofNat 32 (n + 30 * messageLength m)) = charIndex m (BitVec.ofNat 32 n) := by
  rw [charIndex_ofNat m h, charIndex_ofNat m (by omega), Nat.add_mul_div_left _ _ (by decide), Nat.add_mod_right]

/-- Settles O40: below 2^32 the index is that of the quotient by 30, which each 30th tick raises by one. -/
theorem characterIndexCycles : Obligations.CharacterIndexCycles := fun m _ =>
  ⟨rfl, fun _ => getElem?_message, charIndex_ofNat m, charIndex_lt m _, charIndex_succ m, charIndex_period m⟩

end Sys2Proof.Machine

/-! ### What TICK does (44_tick.md R216 to R219, R221) -/

namespace Sys2Proof.Machine

section
variable {s : State}

theorem exec_tick_of_domain (h : s.tickDomain = true) : exec .tick s = .next s.tickFrame.tickFinish :=
  (exec_eq .tick s).trans (congrArg Host.Outcome.next (if_pos h))

theorem exec_tick_edom (h : s.tickDomain = false) : exec .tick s = .next (s.raise .edom) :=
  (exec_eq .tick s).trans (congrArg Host.Outcome.next (if_neg (Bool.eq_false_iff.1 h)))

theorem exec_tick_ok (h : s.tickDomain = true) (ha : s.sinkAnswer = .ok) :
    exec .tick s = .next
      ((s.tickFrame.accept (frameOf s.tickFrame.out)).advance (s.iter + 1#32) (nextTime s.time s.speed)) :=
  (exec_tick_of_domain h).trans (congrArg Host.Outcome.next (tickFinish_ok (s := s.tickFrame) ha))

theorem exec_tick_fail (h : s.tickDomain = true) (ha : s.sinkAnswer = .fail) :
    exec .tick s = .next (s.tickFrame.raise .transmitError) :=
  (exec_tick_of_domain h).trans (congrArg Host.Outcome.next (tickFinish_fail (s := s.tickFrame) ha))

/-- The two ends of a TICK inside its domain, by the sink's answer (R216 lines 4 to 7). -/
theorem exec_tick_cases {t : State} (h : s.tickDomain = true) (hx : exec .tick s = .next t) :
    (s.sinkAnswer = .ok ∧
        t = (s.tickFrame.accept (frameOf s.tickFrame.out)).advance (s.iter + 1#32) (nextTime s.time s.speed)) ∨
      (s.sinkAnswer = .fail ∧ t = s.tickFrame.raise .transmitError) := by
  cases ha : s.sinkAnswer with
  | ok => exact Or.inl ⟨rfl, Host.Outcome.next.inj (hx.symm.trans (exec_tick_ok h ha))⟩
  | fail => exact Or.inr ⟨rfl, Host.Outcome.next.inj (hx.symm.trans (exec_tick_fail h ha))⟩

theorem tickDomain_iff : s.tickDomain = true ↔ in01 s.time = true ∧ in01 s.speed = true := Bool.and_eq_true_iff

/-- Lines 1 to 3 of R216 as the registers and buffers of `t` show them: the character and the colour of TIME loaded, its
glyph painted in that colour on BG, and OUT the scaled FB. -/
structure TickPicture (s t : State) : Prop where
  regT : t.regT = s.time
  color : t.color = hueColor s.build s.time
  fg : t.fg = t.color
  bg : t.bg = 0#24
  code : t.code = messageByte s.build.message (charIndex s.build.message s.iter)
  gly : t.gly = packGlyph (fontGlyph s.build.font t.code)
  fb : t.fb = render s.fb (fontGlyph s.build.font t.code) t.fg (some t.bg)
  out : t.out = scaleBuffer t.fb s.bright

/-- The picture does not depend on the sink's answer. -/
theorem exec_tick_picture {t : State} (h : s.tickDomain = true) (hx : exec .tick s = .next t) : TickPicture s t := by
  rcases exec_tick_cases h hx with ⟨_, rfl⟩ | ⟨_, rfl⟩ <;> constructor <;> rfl

end

/-- Settles O37: `tickFrame` is the painted state, the character index names a byte of the message, and the loop of R221
subtracts at most once. -/
theorem tickPerformsItsLines : Obligations.TickPerformsItsLines := by
  refine ⟨rfl, fun s => ⟨exec_tick_edom, fun hin => ?lines⟩⟩
  case lines =>
    obtain ⟨htime, hspeed⟩ := tickDomain_iff.1 hin
    refine ⟨_, getElem?_message (charIndex_lt s.build.message s.iter), exec_tick_fail hin, fun ha => ?_⟩
    rw [exec_tick_ok hin ha, nextTime_eq htime hspeed]
    rfl

/-- Settles O38: the single commands end in `tickFrame` sent to the sink, whose answer decides on the advance. -/
theorem tickEqualsCommandSequence : Obligations.TickEqualsCommandSequence := by
  intro s hin
  have hhue : in01 s.time = true := (tickDomain_iff.1 hin).1
  refine ⟨_, _, _, s.tickFrame.sendOut, exec_hue_of_in01 hhue, exec_eq .rendf _, exec_eq .scale _, exec_eq .emit _,
    fun ha => ?fail, fun ha => ?ok⟩
  case fail => rw [exec_tick_fail hin ha, sendOut_fail (s := s.tickFrame) ha]
  case ok =>
    rw [exec_tick_ok hin ha, sendOut_ok (s := s.tickFrame) ha]
    rfl

/-- Settles O41: the advance adds 1 modulo 2^32 and reaches no flag; the two indices are closed terms. -/
theorem iterationWrapsSilently : Obligations.IterationWrapsSilently := by
  refine ⟨fun s hin ha hiter => ⟨_, exec_tick_ok hin ha, ?wrap, by simp⟩, fun m hm => ?index⟩
  case wrap =>
    rw [State.advance_iter, hiter]
    rfl
  case index =>
    rw [charIndex_zero, charIndex, hm]
    decide

end Sys2Proof.Machine

/-! ### The invariant on TIME and SPEED (44_tick.md R222) -/

namespace Sys2Proof.Machine

/-- Settles O57: TIME is reset to +0.0, SPEED to the SPEED0 of the reset machine's build, and the queue is empty. -/
theorem resetHasTimeInDomain : Obligations.ResetHasTimeInDomain :=
  ⟨tickDomain_iff.2 ⟨in01_f0, resetBuild_speedOk⟩, resetBuild_speedOk, by simp [State.reset]⟩

theorem dataField_time : DataField State.time := ⟨State.issue_time, State.setLastRead_time, State.raise_time⟩

/-- Where TIME and SPEED stay, so does their domain. -/
theorem tickDomain_congr {s t : State} (htime : t.time = s.time) (hspeed : t.speed = s.speed) :
    t.tickDomain = s.tickDomain := by
  rw [State.tickDomain, State.tickDomain, htime, hspeed]

theorem exec_keeps_time {i : Instr} {s t : State} (h : exec i s = .next t) (hi : i ≠ .tick) : t.time = s.time := by
  obtain rfl := exec_next h
  cases i
  case tick => exact absurd rfl hi
  case hue | hsv =>
    rw [commandResult]
    split <;> simp
  case glyph | rendf | rendo | scale => simp [commandResult]
  case emit => exact dataField_time.sendOut State.accept_time s

/-- TICK is the only command that changes TIME, and its new TIME is in [0, 1]. -/
theorem exec_keeps_tickDomain {i : Instr} {s t : State} (hs : s.tickDomain = true) (h : exec i s = .next t) :
    t.tickDomain = true := by
  obtain ⟨htime, hspeed⟩ := tickDomain_iff.1 hs
  refine tickDomain_iff.2 ⟨?time, by rwa [(exec_frame h).speed]⟩
  case time =>
    by_cases hi : i = .tick
    · subst hi
      rcases exec_tick_cases hs h with ⟨_, rfl⟩ | ⟨_, rfl⟩
      · exact in01_nextTime htime hspeed
      · exact htime
    · rwa [exec_keeps_time h hi]

theorem regRead_tickDomain (s : State) (idx : Nat) : (s.regRead idx).tickDomain = s.tickDomain :=
  tickDomain_congr (dataField_time.regRead s idx) (dataField_speed.regRead s idx)

/-- A register write keeps the domain if it writes TIME and SPEED, at indices 12 and 13, inside it. -/
theorem writeReg_keeps_tickDomain {s : State} {idx : Nat} {v : Word} (hs : s.tickDomain = true)
    (hv : idx = 12 ∨ idx = 13 → in01 v = true) : (s.writeReg v (hostReg idx)).tickDomain = true := by
  obtain ⟨htime, hspeed⟩ := tickDomain_iff.1 hs
  have hidx {n : Nat} : hostIndex (hostReg idx) = some n → n = idx := eq_of_hostIndex_hostReg
  cases hr : hostReg idx <;> rw [hr] at hidx
  case time => exact tickDomain_iff.2 ⟨hv (.inl (hidx rfl).symm), hspeed⟩
  case speed => exact tickDomain_iff.2 ⟨htime, hv (.inr (hidx rfl).symm)⟩
  all_goals exact hs

/-- The host's next write is a plain write, or the word last read written back (20_memory.md R64, R98). -/
theorem nextWrite_cases {s : State} {idx : Nat} {v : Word} (hw : s.nextWrite = some (idx, v)) :
    ∃ a rest, s.nextAnswer = some a ∧
      (s.pending = { action := .write idx v, answer := a } :: rest ∨
        (s.pending = { action := .writeRead idx, answer := a } :: rest ∧ s.lastRead = v)) := by
  cases hp : s.pending with
  | nil => simp [State.nextWrite, State.nextAction, hp] at hw
  | cons e rest =>
    obtain ⟨x, a⟩ := e
    have hact : s.nextAction = some x := by simp [State.nextAction, hp]
    refine ⟨a, rest, by simp [State.nextAnswer, hp], ?_⟩
    rw [State.nextWrite, hact] at hw
    cases x
    case write =>
      cases hw
      exact Or.inl rfl
    case writeRead =>
      cases hw
      exact Or.inr ⟨rfl, rfl⟩
    all_goals cases hw

/-- Under the invariant the host's next write is no write of TIME or SPEED outside [0, 1]. -/
theorem DomainInv.nextWrite {s : State} (hs : DomainInv s) {idx : Nat} {v : Word} (hw : s.nextWrite = some (idx, v))
    (hidx : idx = 12 ∨ idx = 13) : in01 v = true := by
  obtain ⟨-, -, hpending⟩ := hs
  obtain ⟨a, rest, -, hp | ⟨hp, -⟩⟩ := nextWrite_cases hw <;> rw [hp] at hpending
  · have hkeeps := hpending _ List.mem_cons_self
    exact (if_pos hidx).symm.trans hkeeps
  · obtain ⟨h12, h13⟩ := of_decide_eq_true (hpending _ List.mem_cons_self)
    exact absurd hidx (not_or.2 ⟨h12, h13⟩)

theorem step_keeps_tickDomain {s t : State} (hs : DomainInv s) (h : step s = .next t) : t.tickDomain = true := by
  have ⟨hdom, hspeed0, _⟩ := hs
  by_cases hr : s.nextAction = some .reset
  · obtain ⟨rest, a, rfl⟩ := step_reset h hr
    exact tickDomain_iff.2 ⟨in01_f0, hspeed0⟩
  obtain ⟨rest, a, he⟩ := step_effect h hr
  have hissue : (s.issue rest a).tickDomain = true := hdom
  cases he with
  | keep => exact hissue
  | read => rwa [regRead_tickDomain]
  | command _ _ hx => exact exec_keeps_tickDomain hissue hx
  | undefinedCommand => exact hissue
  | store _ hw => exact writeReg_keeps_tickDomain hissue (hs.nextWrite hw)

/-- Settles O56: no step leaves the domain, the build is constant, and the queue only gets shorter. -/
theorem stepKeepsTimeInDomain : Obligations.StepKeepsTimeInDomain := by
  intro s t hs h
  refine ⟨step_keeps_tickDomain hs h, ?_, fun e he => ?_⟩
  all_goals obtain ⟨-, hspeed0, hpending⟩ := hs
  · rwa [stepKeepsBuild s t h]
  · rw [stepConsumesOneAction s t h] at he
    exact hpending e (List.mem_of_mem_tail he)

/-! ### A step that executes TICK (44_tick.md R216, R222) -/

theorem nextCommand_cases {s : State} {i : Instr} (hc : s.nextCommand = some i) :
    s.halt = false ∧ ∃ v, s.nextWrite = some (0, v) ∧ decode v = .ok i := by
  unfold State.nextCommand at hc
  split at hc
  · cases hc
  · next hh =>
    split at hc
    · next idx v hw =>
      split at hc
      · next h0 =>
        refine ⟨Bool.eq_false_iff.2 hh, v, h0 ▸ hw, ?_⟩
        cases hd : decode v <;> rw [hd] at hc <;> cases hc
        rfl
      · cases hc
    · cases hc

/-- A step whose next command is `i` executes `i`, on the state that has issued the host's action. -/
theorem exec_of_nextCommand {s t : State} {i : Instr} (hc : s.nextCommand = some i) (h : step s = .next t) :
    ∃ rest a, s.nextAnswer = some a ∧ exec i (s.issue rest a) = .next t := by
  obtain ⟨hh, v, hw, hd⟩ := nextCommand_cases hc
  obtain ⟨a, rest, ha, hp⟩ := nextWrite_cases hw
  obtain ⟨hwrite, hwriteRead⟩ := stepRunsDecodedCommand s i v a rest hh hd
  have hstep : step s = exec i (s.issue rest a) := hp.elim hwrite fun ⟨hq, hread⟩ => hwriteRead hq hread
  exact ⟨rest, a, ha, hstep ▸ h⟩

theorem exec_tick_flag_edom {s t : State} (h : s.tickDomain = true) (hx : exec .tick s = .next t) :
    t.flag .edom = s.flag .edom := by
  rcases exec_tick_cases h hx with ⟨_, rfl⟩ | ⟨_, rfl⟩
  · rfl
  · rw [flag_raise]
    exact Bool.or_false _

/-- Settles O58: the invariant puts the step in the domain of TICK, which then paints its picture and sends it. -/
theorem tickNeverRaisesEdomInDomain : Obligations.TickNeverRaisesEdomInDomain := by
  intro s t hs hc h
  obtain ⟨rest, a, ha, hx⟩ := exec_of_nextCommand hc h
  obtain ⟨hdom, -, -⟩ := hs
  have hdom : (s.issue rest a).tickDomain = true := hdom
  have pic := exec_tick_picture hdom hx
  have hedom := exec_tick_flag_edom hdom hx
  refine ⟨hedom, pic.regT, pic.color, pic.fg, pic.bg, pic.code, fun r j => ?glyph, fun k => ⟨?painted, ?scaled⟩,
    fun hok => ?ok, fun hfail => ?fail⟩
  case glyph =>
    rw [pic.gly]
    exact packGlyph_fontGlyph_bit s.build.font t.code r j
  case painted =>
    rw [pic.gly, pic.fb]
    exact render_entry s.fb (fontGlyph s.build.font t.code) t.fg (some t.bg) k
  case scaled =>
    rw [pic.out]
    exact scaleBuffer_get t.fb s.bright k
  case ok =>
    obtain rfl := Option.some.inj (ha.symm.trans hok)
    rw [exec_tick_ok hdom rfl] at hx
    obtain rfl := Host.Outcome.next.inj hx
    exact ⟨rfl, rfl⟩
  case fail =>
    obtain rfl := Option.some.inj (ha.symm.trans hfail)
    rw [exec_tick_fail hdom rfl] at hx
    obtain rfl := Host.Outcome.next.inj hx
    refine ⟨?_, rfl, rfl⟩
    rw [State.halt, flag_raise]
    exact Bool.or_true _

end Sys2Proof.Machine

/-! ### Undefined commands, waits and accesses the map does not allow (60_exceptions.md R243, R244, R258, R262) -/

namespace Sys2Proof.Machine

theorem command_of_ne_encode (s : State) {w : Word} (hw : ∀ i : Instr, w ≠ encode i) :
    s.command w = .next (s.raise .ecmd) := by
  rcases command_cases s w with ⟨i, hd, _⟩ | ⟨_, hc⟩
  · exact absurd (decode_eq_ok.1 hd) (hw i)
  · exact hc

/-- Settles O5: the write reaches the command port, and no command decodes to the word. -/
theorem undefinedCommandSetsEcmd : Obligations.UndefinedCommandSetsEcmd := by
  intro s w a rest hh hp hw
  rw [step_write_cmd hp hh rfl, command_of_ne_encode _ hw]
  rfl

/-- Settles O7: an idle step keeps the state, and performing a wait keeps the state that has issued it. -/
theorem idleAndWaitKeepState : Obligations.IdleAndWaitKeepState :=
  fun _ _ _ _ => ⟨step_nil, step_cons⟩

/-- Settles O45: the read's frame of O43 with its guard met and the word 0, and a write to a register that is not
writable. -/
theorem illegalAccessSetsEacc : Obligations.IllegalAccessSetsEacc := by
  intro s idx v a rest hh
  refine ⟨fun hp hidx => ?read, fun hp hidx => ?write⟩
  case read =>
    obtain ⟨w, t, hframe, hstep, hzero, -⟩ := readReturnsStoredBits s idx a rest hp
    rw [hstep, hframe, if_pos ⟨hh, hidx⟩, hzero hidx]
  case write =>
    rw [step_write_store hp hh (by omega), writeReg_of_not_writable _ _ (writable_hostReg_eq_false (by omega))]
    rfl

/-! ### The origin of each flag (60_exceptions.md R241 to R244, R248) -/

/-- Settles O48: `StatusGrows` is the claim of one step. -/
theorem atMostOneErrorPerStep : Obligations.AtMostOneErrorPerStep := fun _ _ => step_statusGrows

/-- `StatusGrows` with the origin of the new flag: a cause that gains its flag has the property `P`. -/
def StatusGrowsBy (P : Cause → Prop) (s t : State) : Prop :=
  t.status = s.status ∨ ∃ c : Cause, P c ∧ t.status = statusWith s.status c

theorem StatusGrowsBy.raise {P : Cause → Prop} (s : State) {c : Cause} (hc : P c) : StatusGrowsBy P s (s.raise c) :=
  Or.inr ⟨c, hc, rfl⟩

theorem StatusGrowsBy.mono {P Q : Cause → Prop} {s t : State} (hPQ : ∀ c, P c → Q c) (h : StatusGrowsBy P s t) :
    StatusGrowsBy Q s t :=
  h.imp_right fun ⟨c, hc, hst⟩ => ⟨c, hPQ c hc, hst⟩

/-- A flag that is new belongs to the one cause raised. -/
theorem StatusGrowsBy.of_new_flag {P : Cause → Prop} {s t : State} (h : StatusGrowsBy P s t) {c : Cause}
    (hs : s.flag c = false) (ht : t.flag c = true) : P c := by
  rcases h with hkeep | ⟨d, hd, hgain⟩
  · have hflag : t.flag c = s.flag c := by rw [State.flag, hkeep, State.flag]
    simp [hflag, hs] at ht
  · have hflag : t.flag c = (s.raise d).flag c := by rw [State.flag, hgain, State.flag, State.raise_status]
    rw [hflag, flag_raise, hs, Bool.false_or, decide_eq_true_iff] at ht
    exact ht ▸ hd

/-- When command `i` raises each cause: it sends a frame the sink refuses, or its operands are outside their domain
(R241, R242). -/
def CommandRaises (i : Instr) (s : State) : Cause → Prop
  | .transmitError => (i = .emit ∨ i = .tick) ∧ s.sinkAnswer = .fail
  | .edom => (i = .hue ∧ s.hueDomain = false) ∨ (i = .hsv ∧ s.hsvDomain = false) ∨ (i = .tick ∧ s.tickDomain = false)
  | .ecmd | .eacc => False

theorem exec_tick_statusGrowsBy {s t : State} (h : exec .tick s = .next t) :
    StatusGrowsBy (CommandRaises .tick s) s t := by
  cases hin : s.tickDomain
  · obtain rfl := Host.Outcome.next.inj ((exec_tick_edom hin).symm.trans h)
    exact .raise s (c := .edom) (Or.inr (Or.inr ⟨rfl, hin⟩))
  · rcases exec_tick_cases hin h with ⟨_, rfl⟩ | ⟨ha, rfl⟩
    · exact Or.inl (by simp)
    · exact .raise s.tickFrame (c := .transmitError) ⟨Or.inr rfl, ha⟩

theorem exec_statusGrowsBy {i : Instr} {s t : State} (h : exec i s = .next t) :
    StatusGrowsBy (CommandRaises i s) s t := by
  cases i
  case tick => exact exec_tick_statusGrowsBy h
  all_goals obtain rfl := exec_next h
  case hue =>
    rw [commandResult]
    split
    · exact Or.inl rfl
    · next hout => exact .raise s (c := .edom) (Or.inl ⟨rfl, Bool.eq_false_iff.2 hout⟩)
  case hsv =>
    rw [commandResult]
    split
    · exact Or.inl rfl
    · next hout => exact .raise s (c := .edom) (Or.inr (Or.inl ⟨rfl, Bool.eq_false_iff.2 hout⟩))
  case glyph | rendf | rendo | scale => exact Or.inl (by simp [commandResult])
  case emit =>
    rw [commandResult]
    cases ha : s.sinkAnswer
    · rw [sendOut_ok ha]
      exact Or.inl rfl
    · rw [sendOut_fail ha]
      exact .raise s (c := .transmitError) ⟨Or.inl rfl, ha⟩

/-- What the next step of `s` does if it raises a cause (R241 to R244). -/
def StepRaises (s : State) : Cause → Prop
  | .transmitError => (s.nextCommand = some .emit ∨ s.nextCommand = some .tick) ∧ s.nextAnswer = some .fail
  | .edom =>
    (s.nextCommand = some .hue ∧ s.hueDomain = false) ∨ (s.nextCommand = some .hsv ∧ s.hsvDomain = false) ∨
      (s.nextCommand = some .tick ∧ s.tickDomain = false)
  | .ecmd => ∃ w : Word, s.nextWrite = some (0, w) ∧ ∀ i : Instr, w ≠ encode i
  | .eacc =>
    (∃ idx, s.nextAction = some (.read idx) ∧ (hostReg idx).readable = false) ∨
      (∃ idx v, s.nextWrite = some (idx, v) ∧ (hostReg idx).writable = false)

/-- What the command raises, the step that executes it raises. -/
theorem CommandRaises.stepRaises {i : Instr} {s : State} {rest : List HostEvent} {a : SinkAnswer}
    (hc : s.nextCommand = some i) (ha : s.nextAnswer = some a) :
    ∀ c, CommandRaises i (s.issue rest a) c → StepRaises s c
  | .transmitError, ⟨hi, hfail⟩ =>
    ⟨hi.imp (hc.trans <| congrArg some ·) (hc.trans <| congrArg some ·), ha.trans (congrArg some hfail)⟩
  | .edom, h => by
    rcases h with ⟨rfl, hout⟩ | ⟨rfl, hout⟩ | ⟨rfl, hout⟩
    · exact Or.inl ⟨hc, hout⟩
    · exact Or.inr (Or.inl ⟨hc, hout⟩)
    · exact Or.inr (Or.inr ⟨hc, hout⟩)

theorem writeReg_status_of_writable (s : State) (v : Word) {r : HostReg} (h : r.writable = true) (hr : r ≠ .cmd) :
    (s.writeReg v r).status = s.status := by
  cases r
  case cmd => exact absurd rfl hr
  case status | color | gly | cidx | unassigned | out => cases h
  all_goals rfl

theorem step_statusGrowsBy {s t : State} (h : step s = .next t) (hr : s.nextAction ≠ some .reset) :
    StatusGrowsBy (StepRaises s) s t := by
  obtain ⟨rest, a, he⟩ := step_effect h hr
  cases he with
  | keep => exact Or.inl rfl
  | @read idx hread =>
    rcases regRead_cases (s.issue rest a) idx with ⟨_, heq⟩ | ⟨hc, heq⟩ <;> rw [heq]
    · exact Or.inl rfl
    · exact .raise s (c := .eacc) (Or.inl ⟨idx, hread, (Bool.or_eq_false_iff.1 hc).2⟩)
  | command hc ha hx => exact (exec_statusGrowsBy (s := s.issue rest a) hx).mono (CommandRaises.stepRaises hc ha)
  | @undefinedCommand v _ hw hd => exact .raise s (c := .ecmd) ⟨v, hw, fun i hi => hd i (decode_eq_ok.2 hi)⟩
  | @store idx v _ hw h0 =>
    cases hwr : (hostReg idx).writable
    · rw [writeReg_of_not_writable _ _ hwr]
      exact .raise s (c := .eacc) (Or.inr ⟨idx, v, hw, hwr⟩)
    · exact Or.inl (writeReg_status_of_writable (s.issue rest a) v hwr fun hcmd => h0 (hostReg_cmd.1 hcmd))

/-- A reset sets no flag (R250), and any other step sets the flag of a cause it raises. -/
theorem stepRaises_of_new_flag {s t : State} (h : step s = .next t) {c : Cause} (hs : s.flag c = false)
    (ht : t.flag c = true) : StepRaises s c := by
  by_cases hr : s.nextAction = some .reset
  · obtain ⟨rest, a, rfl⟩ := step_reset h hr
    simp [State.flag] at ht
  · exact (step_statusGrowsBy h hr).of_new_flag hs ht

/-- Settles O49: the four clauses are `StepRaises` of the four causes. -/
theorem flagsHaveTheirOrigins : Obligations.FlagsHaveTheirOrigins := fun _ _ h =>
  ⟨stepRaises_of_new_flag h (c := .transmitError), stepRaises_of_new_flag h (c := .edom),
    stepRaises_of_new_flag h (c := .ecmd), stepRaises_of_new_flag h (c := .eacc)⟩

/-! ### The halted block (60_exceptions.md R246, R250) -/

theorem regRead_of_halted {s : State} (hh : s.halt = true) (idx : Nat) :
    s.regRead idx = s.setLastRead (s.readWord (hostReg idx)) :=
  if_pos (by rw [hh, Bool.true_or])

/-- A step of a halted block that is no reset reads a word or does no more than issue the host's action. -/
theorem step_halted_cases {s t : State} (hh : s.halt = true) (h : step s = .next t) (hr : s.nextAction ≠ some .reset) :
    ∃ rest a,
      ((∀ idx, s.nextAction ≠ some (.read idx)) ∧ t = s.issue rest a) ∨
        ∃ idx, s.nextAction = some (.read idx) ∧ t = (s.setLastRead (s.readWord (hostReg idx))).issue rest a := by
  obtain ⟨rest, a, he⟩ := step_effect h hr
  refine ⟨rest, a, ?_⟩
  cases he with
  | keep hnone => exact Or.inl ⟨hnone, rfl⟩
  | @read idx hread => exact Or.inr ⟨idx, hread, by rw [regRead_issue, regRead_of_halted hh]⟩
  | command hc =>
    obtain ⟨hrun, _⟩ := nextCommand_cases hc
    simp [hh] at hrun
  | undefinedCommand hrun | store hrun => simp [hh] at hrun

/-- Settles O50: neither ending of a halted block's step touches more than the queue, the answer and the word read. -/
theorem haltedBlockOnlyAnswersReads : Obligations.HaltedBlockOnlyAnswersReads := by
  intro s t hh h hr
  obtain ⟨rest, a, ⟨hnone, rfl⟩ | ⟨idx, hread, rfl⟩⟩ := step_halted_cases hh h hr
  · exact ⟨by simp [State.sameRegisters], rfl, hh, fun idx hread => absurd hread (hnone idx), fun _ => rfl⟩
  · refine ⟨by simp [State.sameRegisters], rfl, hh, fun j hj => ?_, fun hnone => absurd hread (hnone idx)⟩
    rw [hread] at hj
    cases hj
    rfl

end Sys2Proof.Machine

/-! ### The reset event (70_reset_and_hazards.md R270, R271; 60_exceptions.md R250) -/

namespace Sys2Proof.Machine

/-- A pending reset always has a next state, that of a halted block included. -/
theorem step_pending_reset {s : State} {a : SinkAnswer} {rest : List HostEvent}
    (hp : s.pending = { action := .reset, answer := a } :: rest) :
    step s = .next (s.issue rest a).applyReset := by
  rw [step_cons hp, State.perform]

@[simp] theorem halt_applyReset (s : State) : s.applyReset.halt = false := by
  simp [State.halt, State.flag]

/-- CIDX is a view of ITER (R31), which reset clears. -/
@[simp] theorem readWord_cidx_applyReset (s : State) : s.applyReset.readWord .cidx = 0#32 := by
  rw [State.readWord, State.applyReset_iter, charIndex_zero]

/-- Settles O55: the next state is `State.applyReset` of the state that has issued the action, and issuing moves only the
queue and the sink's answer. -/
theorem resetEvent : Obligations.ResetEvent := by
  intro s a rest hp
  exact ⟨(s.issue rest a).applyReset, step_pending_reset hp, State.applyReset_status _, halt_applyReset _,
    State.applyReset_time _, State.applyReset_iter _, readWord_cidx_applyReset _, State.applyReset_speed _,
    State.applyReset_bright _, State.applyReset_build _, State.applyReset_sinkRecord _, State.applyReset_pending _⟩

end Sys2Proof.Machine
